-- ==== Sys2Proof/Word.lean ====
section
/-! DEFINITION. The word types of zasm-8: 8-bit register values and bus, 4-bit register ids and immediates
(00_scope.md R7, R9; 30_encoding.md R71). -/

namespace Sys2Proof

/-- A register value, a bus value, an address of program memory, an instruction byte (`XLEN = ILEN = 8`, R7). -/
abbrev Byte := BitVec 8

/-- A register id as an instruction field holds it, 0 to 15; 14 and 15 name no register (R21, R71). -/
abbrev Reg4 := BitVec 4

/-- An immediate, 0 to 15, unsigned (`IMMW = 4`, R7, R80). -/
abbrev Imm4 := BitVec 4

end Sys2Proof
end

