-- ==== Sys2Proof/Machine/State.lean ====
section
/-! DEFINITION. The target machine's state as plain data, its reasons to stop, and the state after reset
(10_state.md R35; 70_reset_and_hazards.md R260; 60_exceptions.md R234). -/

namespace Sys2Proof.Machine

/-- What an address of program memory that nothing has written reads as. DESIGN CHOICE, unsafe, log entry 3: the spec
leaves the bytes past the program to the launch (R50). -/
def unlistedByte : Byte := 0x00#8

/-- Program memory: (address, byte) pairs, addresses strictly rising and below 256, no entry equal to `unlistedByte`. -/
abbrev Memory := List Host.Cell

/-- The two hardware revisions of the microcode translator (R148, R149). -/
inductive Revision where
  | one
  | two
  deriving DecidableEq, Repr

/-- One installed control-ROM page of 256 bytes (R65). What it returns at an instruction byte is `State.romByte`. -/
inductive RomPage where
  /-- The constant page (R260: "unchanged constants"): what `generate_rom_page` gives for the machine's own revision and pin
  table. Those are parameters, OPEN ones, so the page is named here and its bytes are `romPage` of them; log entry 17. -/
  | generated
  /-- A page that the host has programmed from a file (R264, R275): its bytes. -/
  | programmed (bytes : Vector Byte 256)
  deriving DecidableEq, Repr

/-- The one fault reason of the reference semantics (R234). No step of this model answers it: it is recorded in
`State.faulted` by the read of a register that nothing has written since reset, and the machine goes on (log entry 2);
the strict step of Safety.lean answers it. Stopping there is safe. -/
inductive Fault where
  /-- A read of id `r`, 0 to 5, that nothing has written since reset (R36). Raised by MOV, JEZ, JNZ and JNI through the
  strict step only; safe. -/
  | unwrittenRegister (r : Fin 6)
  deriving DecidableEq, Repr

/-- Why an instruction is given no meaning. -/
inductive Refusal where
  /-- An arm of `exec` that has no meaning yet; safe. No arm uses it. -/
  | notModelled (mnemonic : String)
  /-- `RefusedInvalid` (R234): an instruction that fails `is_valid`, raised by MOV, LDI, JEZ and JNZ for register ids 14
  and 15; unreachable from `decode` (R82); safe. -/
  | invalidInstruction
  /-- A MOV or an LDI whose destination is read-only, ids 7 to 13 ("attempting to write one is a distinct, detectable
  error", R22); raised by MOV and LDI, unreachable from `decode` (R82); safe. -/
  | readOnlyDestination (d : Reg4)
  /-- `RefusedMemcell` (R54, R234): an access to id 3 under `MEMCELL_MAPPED = true`; raised by MOV, LDI, JEZ and JNZ;
  safe. -/
  | memcellUndefined
  /-- `RefusedRevision` (R149, R234): `REVISION = 2` and its tables are not supplied; raised by the machine cycle; safe. -/
  | revisionNotSupplied
  /-- An installed ROM page is not what the translator produces under the machine's revision and pin table: "the control
  word is not one the translator produces, and this spec says nothing of the result" (R264; 93_implementation_defined.md
  section 1: refuse; log entry 17); raised by the machine cycle; safe. -/
  | romPagesDiffer
  deriving DecidableEq, Repr

/-- The machine's state: R35's record, and the inputs and constants that R260, R262, R264 and R275 name. -/
structure State where
  /-- The storage of ids 0 to 5: address, condition, general-purpose, memory-cell, operand-1, operand-2 (R21, R35). -/
  regs : Vector Byte 6
  /-- Which of ids 0 to 5 have been written since reset: R35's `some` and `none`. -/
  written : Vector Bool 6
  /-- The program counter, id 7 (R25). -/
  pc : Byte
  /-- The halted flag (R35, R210). -/
  halted : Bool
  /-- Program memory, 256 bytes (R35, R50). -/
  imem : Memory
  /-- The first read of an unwritten register, kept for ever (R35, R234: "A fault or refusal is sticky"). -/
  faulted : Option Fault
  /-- The three control-ROM pages installed (R65, R158, R264). -/
  rom : Vector RomPage 3
  /-- The external reset input, sampled by each machine cycle (R233, R262, R275). -/
  extReset : Bool
  /-- The model's own: how many free values (`draw()`, R10) the run has used. -/
  draws : Nat
  deriving DecidableEq, Repr

/-- The values of ids 0 to 5 after a reset. DESIGN CHOICE, unsafe, log entry 1: the spec gives "unwritten". -/
def resetRegs : Vector Byte 6 := Vector.replicate 6 0x00#8

/-- Ids 0 to 5 are unwritten after a reset (R260). -/
def resetWritten : Vector Bool 6 := Vector.replicate 6 false

/-- The ROM pages of the machine's own revision and pin table (R260, R264). DESIGN CHOICE, log entry 17. -/
def resetRom : Vector RomPage 3 := Vector.replicate 3 .generated

/-- The machine right after reset (R260): `pc = 0x00`, not halted, ids 0 to 5 unwritten, no fault recorded; nothing is
loaded into program memory. -/
def State.reset : State :=
  { regs := resetRegs
    written := resetWritten
    pc := 0x00#8
    halted := false
    imem := []
    faulted := none
    rom := resetRom
    extReset := false
    draws := 0 }

/-- The outcome of one instruction or one machine cycle. -/
abbrev Result := Host.Outcome State Fault Refusal

end Sys2Proof.Machine
end

