-- ==== Sys2Proof/Syntax.lean ====
section
/-! DEFINITION. The Instruction data model: one constructor per opcode, each with its own payload (30_encoding.md R71). -/

namespace Sys2Proof

/-- An instruction (R71). Register fields are 4 bits wide, wider than the 14 legal ids, "so that an out-of-range
instruction can be written down and shown invalid". -/
inductive Instr where
  /-- move-register (R170) -/
  | mov (dst src : Reg4)
  /-- load-immediate (R175) -/
  | ldi (dst : Reg4) (imm : Imm4)
  /-- jump-if-zero (R195) -/
  | jez (t : Reg4)
  /-- jump-if-nonzero (R198) -/
  | jnz (t : Reg4)
  /-- jump-to-immediate-if-condition (R200) -/
  | jni (imm : Imm4)
  /-- halt (R210) -/
  | hlt
  /-- reset (R215) -/
  | rst
  deriving DecidableEq, Repr

end Sys2Proof
end

