-- ==== Sys2Proof/Config.lean ====
section
/-! DEFINITION. What an implementation fixes (the OPEN parameters of 00_scope.md R7, as fields of `Config`), the control
signals they speak of (40_control_word.md R142), and the free values, opaque constants of which nothing is known. -/

namespace Sys2Proof

/-- The 27 logical signals (R142). -/
inductive Signal where
  /-- `OE[r]`: drives register `r` onto the bus. -/
  | oe (r : Fin 14)
  /-- `IE[r]`: loads the bus into register `r`; `IE[7]` is the program counter's. -/
  | ie (r : Fin 8)
  | aluSub
  | jneg
  | imm
  | hlt
  | rst
  deriving DecidableEq, Repr

/-- A set of signals, one line per signal (R140 `CW`, R142): bit `r` of `oe` is `OE[r]`, bit `r` of `ie` is `IE[r]`. -/
structure SignalSet where
  oe : BitVec 14
  ie : BitVec 8
  aluSub : Bool
  jneg : Bool
  imm : Bool
  hlt : Bool
  rst : Bool
  deriving DecidableEq, Repr

/-- A signal of revision 2 that is none of the 27 (R149: its "signal inventory" is an argument, and the copies of the
translator disagree on "the named control bits"). No rule of R143 asserts it, so what counts of it is whether it is in the
active-low set and which pin it is wired to. -/
structure ExtraSignal where
  activeLow : Bool
  pin : Option (Fin 24)
  deriving DecidableEq, Repr

/-- What a revision of the translator fixes: which signals it has, which are wired active-low, and the pin table
(R148, R149, R151). -/
structure RevisionTables where
  /-- Which of the 27 signals it has. -/
  inventory : SignalSet
  activeLow : SignalSet
  pinOf : Signal → Option (Fin 24)
  /-- The signals it has beside them; none in revision 1. -/
  extra : List ExtraSignal

/-- The OPEN parameters of R7. Every function of the model that depends on one takes a `Config`; the fixed-name machine is
the one at `Machine.defaultConfig`, the spec's defaults. -/
structure Config where
  /-- `HLT_RST_SWAP` (R78, D1). -/
  hltRstSwap : Bool
  /-- `REG_LETTER`, as the letter's byte (R21, D2). -/
  regLetter : Fin 14 → Byte
  /-- `REVISION` (R148, R149, D6). -/
  revision : Machine.Revision
  /-- Revision 2's inventory, mask and pin table, where they are supplied (R149). -/
  rev2 : Option RevisionTables
  /-- `PIN_OF` of revision 1 (R151, D5). -/
  pinOf : Signal → Option (Fin 24)
  /-- `PC_READ_OFFSET` is 1 (R27, D10). -/
  pcReadNext : Bool
  /-- `COND` (R190, D11). -/
  cond : Byte → Bool
  /-- `ALU_ADD` (R31, D13). -/
  aluAdd : Byte → Byte → Byte
  /-- `ALU_SUB` (R31, D13). -/
  aluSub : Byte → Byte → Byte
  /-- `JE_FN` (R29, D13); `none` is the spec's default, which follows `COND` (`Machine.jumpEnable`). -/
  jeFn : Option (Machine.State → Byte)
  /-- The registers among ids 0 to 5 that a supplied `JE_FN` reads (R263), in the order it reads them. -/
  jeReads : List (Fin 6)
  /-- `SHIFT_FN` (R30, D13). -/
  shiftFn : Machine.State → Byte
  /-- The registers among ids 0 to 5 that `SHIFT_FN` reads (R263), in the order it reads them. -/
  shiftReads : List (Fin 6)
  /-- `MEMCELL_MAPPED` (R54, D15). -/
  memcellMapped : Bool
  /-- The values of `draw()` (R10): the n-th free value of the run. -/
  draw : Nat → Byte
  /-- The values the host supplies for reads of the input latch, id 8 (R28, R275). -/
  input : Nat → Byte
  /-- `explain`'s text for LDI, JEZ, JNZ and JNI, which is OPEN (R127, D24). -/
  explainText : Instr → List Byte
  /-- The levels of the `TGT` port for a byte that is neither JEZ nor JNZ: R76 gives it a meaning for those two only. -/
  idleTgt : Byte → Reg4

/-- FREE VALUE, log entry 4: the n-th `draw()` (R10, R33, R194). -/
opaque Config.freeDraw : Nat → Byte

/-- FREE VALUE, log entry 5: the host's n-th input value (R28, R275). -/
opaque Config.freeInput : Nat → Byte

/-- FREE VALUE, log entry 14: `SHIFT_FN`, which has no default (R30). -/
opaque Config.freeShift : Machine.State → Byte

/-- FREE VALUE, log entry 14: the registers `SHIFT_FN` reads (R263). -/
opaque Config.freeShiftReads : List (Fin 6)

/-- FREE VALUE, log entry 16: a partial table from signals to pins (R151). -/
opaque Config.freePinOf : Signal → Option (Fin 24)

/-- FREE VALUE, log entry 27: `explain`'s open strings (R127). -/
opaque Config.freeExplain : Instr → List Byte

/-- FREE VALUE, log entry 29: the `TGT` port's levels where no rule gives them a meaning (R76). -/
opaque Config.freeTgt : Byte → Reg4

end Sys2Proof
end

