-- ==== Sys2Proof/WellFormed.lean ====
section
/-! DEFINITION. The validity predicate of the data model and well-formedness: an instruction is well formed when the
encoder accepts it (30_encoding.md R72, R84, R86). -/

namespace Sys2Proof

/-- The id names one of the 14 registers (R21). -/
def isRegister (r : Reg4) : Bool := r.toNat < 14

/-- The id names a write-capable register, 0 to 6 (R22). -/
def isWriteCapable (r : Reg4) : Bool := r.toNat < 7

/-- `is_valid`: every register operand is a register id 0 to 13 (R72). It is a range check only: the destination's class
is the encoder's business (90_conflicts.md C1). -/
def isValid : Instr → Bool
  | .mov d s => isRegister d && isRegister s
  | .ldi d _ => isRegister d
  | .jez t => isRegister t
  | .jnz t => isRegister t
  | .jni _ => true
  | .hlt => true
  | .rst => true

/-- The destination of a MOV or an LDI is write-capable; the other instructions name no destination (R22, R86). -/
def destinationWritable : Instr → Bool
  | .mov d _ => isWriteCapable d
  | .ldi d _ => isWriteCapable d
  | .jez _ => true
  | .jnz _ => true
  | .jni _ => true
  | .hlt => true
  | .rst => true

/-- The 256 instructions that `encode` accepts (R88). -/
def wellFormed (i : Instr) : Bool := isValid i && destinationWritable i

end Sys2Proof
end

