-- ==== Sys2Proof/Decode.lean ====
section
/-! DEFINITION. The one-byte encoding in both directions: `decode`, total over all 256 bytes, the decoder as gate
equations, and `encode` with its two errors (30_encoding.md R70-R92). -/

namespace Sys2Proof

/-- `HLT_RST_SWAP`, an OPEN Bool whose default is `false` (R7, R78, D1). DESIGN CHOICE, log entry 9: the fixed-name
machine uses the default; `decode` and `encode` take the parameter. -/
def hltRstSwapDefault : Bool := false

/-- `HLT_BYTE` (R78). -/
def hltByte (swap : Bool) : Byte := if swap then 0x7F#8 else 0x6F#8

/-- `RST_BYTE` (R78). -/
def rstByte (swap : Bool) : Byte := if swap then 0x6F#8 else 0x7F#8

/-- `b[6:4]` (R8, R73). -/
def hiField (b : Byte) : BitVec 3 := b.extractLsb' 4 3

/-- `b[3:0]` (R8, R73). -/
def loField (b : Byte) : BitVec 4 := b.extractLsb' 0 4

/-- A three-bit destination field as a register id. -/
def regOfHi (b : Byte) : Reg4 := (hiField b).zeroExtend 4

/-- The split target of a JEZ byte, `(b[0] << 3) | b[6:4]` (R74). -/
def jezTarget (b : Byte) : Reg4 := BitVec.ofBool (b.getLsbD 0) ++ hiField b

/-- `decode`, the decision tree of R75, most significant bit first. -/
def decode (swap : Bool) (b : Byte) : Instr :=
  if b.getLsbD 7 then
    if hiField b = 7#3 then .jni (loField b) else .ldi (regOfHi b) (loField b)
  else if (loField b).toNat < 14 then
    if hiField b = 7#3 then .jnz (loField b) else .mov (regOfHi b) (loField b)
  else if b = hltByte swap then .hlt
  else if b = rstByte swap then .rst
  else .jez (jezTarget b)

/-- Why bytes give no instruction. -/
inductive DecodeError where
  /-- No byte is left (end of the byte stream). -/
  | endOfInput
  /-- The decoded instruction fails `is_valid`; for this layout no byte does (R82, C3). -/
  | invalidInstruction
  deriving DecidableEq, Repr

/-- `decode` with the `is_valid` check kept in the decoder's path (R82: "A model still keeps the `is_valid` check in the
decoder's path, as the source requires"). -/
def decodeChecked (swap : Bool) (b : Byte) : Except DecodeError Instr :=
  let i := decode swap b
  if isValid i then .ok i else .error .invalidInstruction

/-- Decode the first instruction of a byte list and give back the rest: every instruction is one byte (R92). -/
def decodeBytes (swap : Bool) : List Byte → Except DecodeError (Instr × List Byte)
  | [] => .error .endOfInput
  | b :: rest =>
    match decodeChecked swap b with
    | .ok i => .ok (i, rest)
    | .error e => .error e

/-- The two errors of `encode` (R84). -/
inductive EncodeError where
  /-- `is_valid` is false. -/
  | invalidInstruction
  /-- The destination of a MOV or an LDI is read-only (R86). -/
  | illegalDestination (d : Reg4)
  deriving DecidableEq, Repr

/-- `encode` (R85): `is_valid` first, then the destination's class, then the layout of the decoder. -/
def encode (swap : Bool) (i : Instr) : Except EncodeError Byte :=
  if isValid i then
    match i with
    | .mov d s =>
      if isWriteCapable d then .ok (((d.zeroExtend 8) <<< 4) ||| s.zeroExtend 8)
      else .error (.illegalDestination d)
    | .ldi d k =>
      if isWriteCapable d then .ok (0x80#8 ||| ((d.zeroExtend 8) <<< 4) ||| k.zeroExtend 8)
      else .error (.illegalDestination d)
    | .jez t => .ok ((((t &&& 7#4).zeroExtend 8) <<< 4) ||| 0x0E#8 ||| (t >>> 3).zeroExtend 8)
    | .jnz t => .ok (0x70#8 ||| t.zeroExtend 8)
    | .jni k => .ok (0xF0#8 ||| k.zeroExtend 8)
    | .hlt => .ok (hltByte swap)
    | .rst => .ok (rstByte swap)
  else .error .invalidInstruction

/-- The byte of an instruction whose table bits are `w`, the bits from `nbits` up being 0. -/
def tableByte (nbits w : Nat) : Byte := BitVec.ofNat 8 (w % 2 ^ nbits)

/-- The instruction the decoder reads from the table word `w` of `nbits` bits, at the default `HLT_RST_SWAP`. -/
def decodeTableWord (nbits w : Nat) : Option Instr :=
  match decodeBytes hltRstSwapDefault [tableByte nbits w] with
  | .ok (i, _) => some i
  | .error _ => none

/-- The one-hot opcode lines of the block, `OP` (40_control_word.md R140). -/
structure OpLines where
  isMov : Bool
  isLdi : Bool
  isJez : Bool
  isJnz : Bool
  isJni : Bool
  isHlt : Bool
  isRst : Bool
  deriving DecidableEq, Repr

/-- `F7 = b[6] & b[5] & b[4]` (R76). -/
def gateF7 (b : Byte) : Bool := b.getLsbD 6 && b.getLsbD 5 && b.getLsbD 4

/-- `HI = b[3] & b[2] & b[1]` (R76). -/
def gateHI (b : Byte) : Bool := b.getLsbD 3 && b.getLsbD 2 && b.getLsbD 1

/-- The decoder as gate equations (R76). -/
def gateOp (swap : Bool) (b : Byte) : OpLines :=
  let f7 := gateF7 b
  let hi := gateHI b
  let isHlt := decide (b = hltByte swap)
  let isRst := decide (b = rstByte swap)
  { isJni := b.getLsbD 7 && f7
    isLdi := b.getLsbD 7 && !f7
    isJnz := !b.getLsbD 7 && !hi && f7
    isMov := !b.getLsbD 7 && !hi && !f7
    isHlt := isHlt
    isRst := isRst
    isJez := !b.getLsbD 7 && hi && !isHlt && !isRst }

/-- The opcode lines of an instruction: the one line of its opcode. -/
def opLines : Instr → OpLines
  | .mov _ _ => { isMov := true, isLdi := false, isJez := false, isJnz := false, isJni := false, isHlt := false, isRst := false }
  | .ldi _ _ => { isMov := false, isLdi := true, isJez := false, isJnz := false, isJni := false, isHlt := false, isRst := false }
  | .jez _ => { isMov := false, isLdi := false, isJez := true, isJnz := false, isJni := false, isHlt := false, isRst := false }
  | .jnz _ => { isMov := false, isLdi := false, isJez := false, isJnz := true, isJni := false, isHlt := false, isRst := false }
  | .jni _ => { isMov := false, isLdi := false, isJez := false, isJnz := false, isJni := true, isHlt := false, isRst := false }
  | .hlt => { isMov := false, isLdi := false, isJez := false, isJnz := false, isJni := false, isHlt := true, isRst := false }
  | .rst => { isMov := false, isLdi := false, isJez := false, isJnz := false, isJni := false, isHlt := false, isRst := true }

end Sys2Proof
end

