-- ==== Sys2Proof/Machine/Ops.lean ====
section
/-! DEFINITION. The named operations over program memory, registers and the program counter, taking a reset, and
fetching (20_memory.md R50-R53; 10_state.md R26, R36, R37; 70_reset_and_hazards.md R260, R262). The machine
raises no exception and takes no interrupt (60_exceptions.md R231, R232, R235): taking a reset is its one shared entry. -/

namespace Sys2Proof.Machine

/-! ## Program memory -/

/-- The byte at an address (`MemRead(addr, 1)`, R51). -/
def Memory.read : Memory → Nat → Byte
  | [], _ => unlistedByte
  | (k, v) :: m, a => if k = a then v else Memory.read m a

/-- Put a byte at an address, keeping the canonical form. Only the host's program load writes memory (R53, R275). -/
def Memory.write : Memory → Nat → Byte → Memory
  | [], a, v => if v = unlistedByte then [] else [(a, v)]
  | (k, w) :: m, a, v =>
    if a < k then (if v = unlistedByte then (k, w) :: m else (a, v) :: (k, w) :: m)
    else if a = k then (if v = unlistedByte then m else (a, v) :: m)
    else (k, w) :: Memory.write m a v

/-- Put a list of bytes at consecutive addresses from `a` on (R50: byte `k` of the file is at address `k`). -/
def Memory.writeBytes : Memory → Nat → List Byte → Memory
  | m, _, [] => m
  | m, a, v :: vs => Memory.writeBytes (Memory.write m a v) (a + 1) vs

/-- Addresses rise strictly from `lo` on, stay below 256, and no entry equals what an unlisted address reads as. -/
def Memory.wfFrom : Nat → Memory → Bool
  | _, [] => true
  | lo, (k, v) :: m => decide (lo ≤ k) && decide (k < 256) && v != unlistedByte && Memory.wfFrom (k + 1) m

/-- The canonical form of program memory. -/
def Memory.wf (m : Memory) : Bool := Memory.wfFrom 0 m

/-! ## Registers and the program counter -/

/-- `pc <- (pc + 1) mod 256` (R26). -/
def State.advance (s : State) : State := { s with pc := s.pc + 1#8 }

/-- `pc <- target`. -/
def State.jumpTo (s : State) (target : Byte) : State := { s with pc := target }

/-- `st[k] <- some v` (R37). -/
def State.setStore (s : State) (k : Fin 6) (v : Byte) : State :=
  { s with regs := s.regs.set k v, written := s.written.set k true }

/-- The spec's `st[k]` (R35): `none` when nothing has written it since reset. -/
def State.st (s : State) (k : Fin 6) : Option Byte := if s.written[k] then some s.regs[k] else none

/-- What reading the registers `ks`, in this order, reports (R36, R234): the first one that is unwritten. -/
def firstUnwritten (s : State) (ks : List (Fin 6)) : Option Fault :=
  (ks.find? fun k => !s.written[k]).map Fault.unwrittenRegister

/-- Record what reading `ks` reports; the first report is kept (R234: "A fault or refusal is sticky"). -/
def State.noteReads (s : State) (ks : List (Fin 6)) : State :=
  { s with faulted := s.faulted.or (firstUnwritten s ks) }

/-- Use up one free value (R10). -/
def State.countDraw (s : State) : State := { s with draws := s.draws + 1 }

/-! ## Reset -/

/-- Take the reset state (R260): `pc = 0x00`, not halted, ids 0 to 5 unwritten; program memory, the recorded fault and the
ROM pages are unchanged. -/
def State.takeReset (s : State) : State :=
  { s with regs := resetRegs, written := resetWritten, pc := 0x00#8, halted := false }

/-- The external reset input resets the machine in the cycle that samples it, and is then released (R262; log entry 7). -/
def State.takeExternalReset (s : State) : State := { s.takeReset with extReset := false }

/-- Set the halted flag; `pc` stays at the HLT (R210). -/
def State.halt (s : State) : State := { s with halted := true }

/-- A final state (R274): halted, and no fault recorded ("A state with a fault or refusal is never final"). -/
def State.final (s : State) : Bool := s.halted && s.faulted.isNone

/-! ## Fetch -/

/-- The byte at the program counter (R51). -/
def State.fetch (s : State) : Byte := s.imem.read s.pc.toNat

/-- Put an instruction byte where the next cycle fetches, and make the next cycle fetch: reset released, not halted, the ROM
pages programmed (R264; log entry 21). -/
def State.placeInstruction (s : State) (b : Byte) : State :=
  { s with imem := s.imem.write s.pc.toNat b, halted := false, extReset := false, rom := resetRom }

end Sys2Proof.Machine
end

