-- ==== Sys2Proof/Machine/Operands.lean ====
section
/-! DEFINITION. The operand forms: register ids as the registers they name, the read function `x[r]` and the write function
`x[r] <- v`, the value of a jump target, and immediates on the bus (10_state.md R21-R37; 42_control_transfer.md R192, R194;
30_encoding.md R80). -/

namespace Sys2Proof.Machine

/-- The 14 registers by what they hold (R21). -/
inductive RegName where
  /-- Ids 0 to 5, read-write storage. -/
  | store (k : Fin 6)
  /-- Id 6, the write-only register. -/
  | sink
  /-- Id 7, the program counter. -/
  | pc
  /-- Id 8, the external input latch. -/
  | input
  /-- Id 9, the derived "jump-enable" bit. -/
  | jumpEnable
  /-- Id 10, the derived "shift" value. -/
  | shift
  /-- Id 11, the derived sum. -/
  | sum
  /-- Id 12, the derived difference. -/
  | difference
  /-- Id 13, the hard-wired zero. -/
  | zero
  deriving DecidableEq, Repr

/-- The register an id names (R21); ids 14 and 15 name none. -/
def regName (r : Reg4) : Option RegName :=
  if h : r.toNat < 6 then some (.store ⟨r.toNat, h⟩)
  else if r = 6#4 then some .sink
  else if r = 7#4 then some .pc
  else if r = 8#4 then some .input
  else if r = 9#4 then some .jumpEnable
  else if r = 10#4 then some .shift
  else if r = 11#4 then some .sum
  else if r = 12#4 then some .difference
  else if r = 13#4 then some .zero
  else none

/-- The id of storage register `k`, 0 to 5. -/
def storeId (k : Fin 6) : Reg4 := BitVec.ofNat 4 k.val

/-- The condition register, id 1 (R21, R190). -/
def conditionReg : Fin 6 := 1

/-- The jump-enable bit, `JE_FN(state)` (R29): the supplied function, or the default `if COND(x[1]) then 0x01 else 0x00`, with
the machine's own `COND`; log entry 12. -/
def jumpEnable (cfg : Config) (s : State) : Byte :=
  match cfg.jeFn with
  | some f => f s
  | none => if cfg.cond s.regs[conditionReg] then 0x01#8 else 0x00#8

/-- The registers among ids 0 to 5 that `JE_FN` reads (R263): the condition register at the default. -/
def jumpEnableReads (cfg : Config) : List (Fin 6) :=
  match cfg.jeFn with
  | some _ => cfg.jeReads
  | none => [conditionReg]

/-- The registers among ids 0 to 5 whose values a read consults, in the order they are read (R36). DESIGN CHOICE, log entry
36: for the sum and the difference id 4 is read, and so reported, before id 5; R234 orders the condition register before the
source or target and no two operands of one source. -/
def readSet (cfg : Config) : RegName → List (Fin 6)
  | .store k => [k]
  | .sink => []
  | .pc => []
  | .input => []
  | .jumpEnable => jumpEnableReads cfg
  | .shift => cfg.shiftReads
  | .sum => [4, 5]
  | .difference => [4, 5]
  | .zero => []

/-- The value of a read, `x[r]` (R36). -/
def readValue (cfg : Config) (s : State) : RegName → Byte
  | .store k => s.regs[k]
  | .sink => cfg.draw s.draws
  | .pc => if cfg.pcReadNext then s.pc + 1#8 else s.pc
  | .input => cfg.input s.draws
  | .jumpEnable => jumpEnable cfg s
  | .shift => cfg.shiftFn s
  | .sum => cfg.aluAdd s.regs[4] s.regs[5]
  | .difference => cfg.aluSub s.regs[4] s.regs[5]
  | .zero => 0x00#8

/-- The read takes a free value of its own (R28, R33). -/
def readDraws : RegName → Bool
  | .sink => true
  | .input => true
  | .store _ => false
  | .pc => false
  | .jumpEnable => false
  | .shift => false
  | .sum => false
  | .difference => false
  | .zero => false

/-- Read a register after the registers `earlier` have been read by the same instruction: the value, and the state in which
what the reads report is recorded (R234) and a free value used is counted. Under `MEMCELL_MAPPED` an access to id 3 is
refused (R54). DESIGN CHOICE, log entry 37: an instruction that meets such an access is refused, whatever unwritten register
it also reads. -/
def readNamed (cfg : Config) (earlier : List (Fin 6)) (n : RegName) (s : State) : Except Refusal (Byte × State) :=
  if cfg.memcellMapped && (readSet cfg n).contains 3 then .error .memcellUndefined
  else
    let s1 := s.noteReads (earlier ++ readSet cfg n)
    .ok (readValue cfg s n, if readDraws n then s1.countDraw else s1)

/-- Read a register by its id (R36). -/
def readReg (cfg : Config) (earlier : List (Fin 6)) (r : Reg4) (s : State) : Except Refusal (Byte × State) :=
  match regName r with
  | some n => readNamed cfg earlier n s
  | none => .error .invalidInstruction

/-- A bus value that no rule defines: a `draw()` (R194, D22). -/
def drawValue (cfg : Config) (earlier : List (Fin 6)) (s : State) : Byte × State :=
  (cfg.draw s.draws, (s.noteReads earlier).countDraw)

/-- What `OE[r]` puts on the bus without `ALU_SUB` (R145, R192, R194): `x[r]`, but for the difference, which no register
outputs directly, and for the write-only register and the input latch, which are draws. -/
def driveReg (cfg : Config) (earlier : List (Fin 6)) (r : Reg4) (s : State) : Except Refusal (Byte × State) :=
  match regName r with
  | some .difference => .ok (drawValue cfg earlier s)
  | some n => readNamed cfg earlier n s
  | none => .error .invalidInstruction

/-- Write a register by its id, `x[r] <- v` (R37). A write to id 6 has no effect on the state (R33). -/
def writeReg (cfg : Config) (r : Reg4) (v : Byte) (s : State) : Except Refusal State :=
  match regName r with
  | some (.store k) => if cfg.memcellMapped && k == 3 then .error .memcellUndefined else .ok (s.setStore k v)
  | some .sink => .ok s
  | some .pc => .error (.readOnlyDestination r)
  | some .input => .error (.readOnlyDestination r)
  | some .jumpEnable => .error (.readOnlyDestination r)
  | some .shift => .error (.readOnlyDestination r)
  | some .sum => .error (.readOnlyDestination r)
  | some .difference => .error (.readOnlyDestination r)
  | some .zero => .error (.readOnlyDestination r)
  | none => .error .invalidInstruction

/-- An immediate on the 8-bit bus: `zext_8(k)` (R80). -/
def immValue (k : Imm4) : Byte := k.zeroExtend 8

end Sys2Proof.Machine
end

