-- ==== Sys2Proof/Machine/Flags.lean ====
section
/-! DEFINITION. The machine has no flag register and no instruction sets a flag (10_state.md R38). What stands in a flag's
place is the jump condition: a test of the condition register, id 1 (42_control_transfer.md R190). -/

namespace Sys2Proof.Machine

/-- `taken = COND(x[1]) xor JNEG` (R190). -/
def taken (cfg : Config) (jneg : Bool) (s : State) : Bool := cfg.cond s.regs[conditionReg] ^^ jneg

end Sys2Proof.Machine
end

