-- ==== Sys2Proof/Machine/Defaults.lean ====
section
/-! DEFINITION. The spec's defaults of the OPEN parameters, and the free values where it gives none (00_scope.md R7). -/

namespace Sys2Proof.Machine

/-- The byte of an ASCII character. -/
def ascii (c : Char) : Byte := BitVec.ofNat 8 c.toNat

/-- `REG_LETTER` (R21, D2), log entry 18. -/
def defaultLetters : Vector Byte 14 :=
  #v[ascii 'a', ascii 'c', ascii 'g', ascii 'm', ascii 'x', ascii 'y', ascii 'w',
     ascii 'p', ascii 'i', ascii 'j', ascii 'h', ascii 's', ascii 'd', ascii 'z']

/-- `COND(v) = (v != 0)` (R190), log entry 10. -/
def defaultCond (v : Byte) : Bool := v != 0x00#8

/-- `ALU_ADD(a, b) = (a + b) mod 256` (R31), log entry 11. -/
def defaultAluAdd (a b : Byte) : Byte := a + b

/-- `ALU_SUB(a, b) = (a - b) mod 256` (R31), log entry 11. -/
def defaultAluSub (a b : Byte) : Byte := a - b

/-- The 27 signals in one order (R142). -/
def allSignals : List Signal :=
  [.oe 0, .oe 1, .oe 2, .oe 3, .oe 4, .oe 5, .oe 6, .oe 7, .oe 8, .oe 9, .oe 10, .oe 11, .oe 12, .oe 13,
   .ie 0, .ie 1, .ie 2, .ie 3, .ie 4, .ie 5, .ie 6, .ie 7, .aluSub, .jneg, .imm, .hlt, .rst]

/-- A table in which two signals never share a pin (R151): of the signals that `raw` sends to one pin, the first in the
order of `allSignals` keeps it. A table that is injective already is unchanged. -/
def firstClaim (raw : Signal → Option (Fin 24)) (sig : Signal) : Option (Fin 24) :=
  match raw sig with
  | none => none
  | some n =>
    if (allSignals.takeWhile (fun other => other != sig)).any (fun other => raw other == some n) then none else some n

/-- The machine the spec's vectors assume: every parameter at its default, the free values where the spec gives none. -/
def defaultConfig : Config :=
  { hltRstSwap := hltRstSwapDefault
    regLetter := fun r => defaultLetters[r]
    revision := .one
    rev2 := none
    pinOf := firstClaim Config.freePinOf
    pcReadNext := false
    cond := defaultCond
    aluAdd := defaultAluAdd
    aluSub := defaultAluSub
    jeFn := none
    jeReads := []
    shiftFn := Config.freeShift
    shiftReads := Config.freeShiftReads
    memcellMapped := false
    draw := Config.freeDraw
    input := Config.freeInput
    explainText := Config.freeExplain
    idleTgt := Config.freeTgt }

end Sys2Proof.Machine
end

