-- ==== Sys2Proof/Machine/ControlWord.lean ====
section
/-! DEFINITION. The microcode translator: the control word of each instruction, the active-low inversion and the revision's
tables (40_control_word.md R141-R149; the per-opcode rules R171, R176, R191, R196, R201, R211, R216). -/

namespace Sys2Proof.Machine

/-- Why the codec gives no control word. -/
inductive CodecError where
  /-- `RefusedInvalid` (R143, R234): the instruction fails `is_valid`. -/
  | refusedInvalid
  /-- `RefusedRevision` (R149, R234): revision 2 without its tables. -/
  | refusedRevision
  deriving DecidableEq, Repr

/-- The empty control word: every signal deasserted. -/
def noSignals : SignalSet :=
  { oe := 0#14, ie := 0#8, aluSub := false, jneg := false, imm := false, hlt := false, rst := false }

/-- Every signal: the logical inventory (R142). -/
def everySignal : SignalSet :=
  { oe := BitVec.allOnes 14, ie := BitVec.allOnes 8, aluSub := true, jneg := true, imm := true, hlt := true, rst := true }

/-- `OE[r]` alone among the output enables. -/
def oeLine (r : Reg4) : BitVec 14 := 1#14 <<< r.toNat

/-- `IE[r]` alone among the input enables; no line for r in 8 to 13, since "No `IE[r]` exists for r in 8..13" (R142). -/
def ieLine (r : Reg4) : BitVec 8 := 1#8 <<< r.toNat

/-- `sig ∈ S`. -/
def asserted (sigs : SignalSet) : Signal → Bool
  | .oe r => sigs.oe.getLsbD r
  | .ie r => sigs.ie.getLsbD r
  | .aluSub => sigs.aluSub
  | .jneg => sigs.jneg
  | .imm => sigs.imm
  | .hlt => sigs.hlt
  | .rst => sigs.rst

/-- MOV's control word (R171): the difference, id 12, is the sum output with `ALU_SUB`. -/
def movWord (dst src : Reg4) : SignalSet :=
  if src = 12#4 then { noSignals with oe := oeLine 11#4, aluSub := true, ie := ieLine dst }
  else { noSignals with oe := oeLine src, ie := ieLine dst }

/-- LDI's control word (R176): it does not depend on the immediate. -/
def ldiWord (dst : Reg4) : SignalSet := { noSignals with imm := true, ie := ieLine dst }

/-- JEZ's control word (R191). -/
def jezWord (t : Reg4) : SignalSet := { noSignals with oe := oeLine t, ie := ieLine 7#4, jneg := true }

/-- JNZ's control word (R196). -/
def jnzWord (t : Reg4) : SignalSet := { noSignals with oe := oeLine t, ie := ieLine 7#4 }

/-- JNI's control word (R201). -/
def jniWord : SignalSet := { noSignals with imm := true, ie := ieLine 7#4 }

/-- HLT's control word (R211). -/
def hltWord : SignalSet := { noSignals with hlt := true }

/-- RST's control word (R216). -/
def rstWord : SignalSet := { noSignals with rst := true }

/-- The logical control word of an instruction (R143). -/
def controlWord : Instr → SignalSet
  | .mov dst src => movWord dst src
  | .ldi dst _ => ldiWord dst
  | .jez t => jezWord t
  | .jnz t => jnzWord t
  | .jni _ => jniWord
  | .hlt => hltWord
  | .rst => rstWord

/-- Revision 1's active-low set: every `OE[r]`, `RST` and `IMM` (R148). -/
def revision1ActiveLow : SignalSet := { noSignals with oe := BitVec.allOnes 14, imm := true, rst := true }

/-- The signals of both sets. -/
def meet (a b : SignalSet) : SignalSet :=
  { oe := a.oe &&& b.oe, ie := a.ie &&& b.ie, aluSub := a.aluSub && b.aluSub, jneg := a.jneg && b.jneg,
    imm := a.imm && b.imm, hlt := a.hlt && b.hlt, rst := a.rst && b.rst }

/-- The symmetric difference of two sets (R147). -/
def symmDiffSet (a b : SignalSet) : SignalSet :=
  { oe := a.oe ^^^ b.oe, ie := a.ie ^^^ b.ie, aluSub := a.aluSub ^^ b.aluSub, jneg := a.jneg ^^ b.jneg,
    imm := a.imm ^^ b.imm, hlt := a.hlt ^^ b.hlt, rst := a.rst ^^ b.rst }

/-- How many signals a set has. -/
def signalCount (sigs : SignalSet) : Nat := (allSignals.filter (asserted sigs)).length

/-- How many active-low signals a revision's tables have. -/
def activeLowCount (t : RevisionTables) : Nat := signalCount t.activeLow + (t.extra.filter ExtraSignal.activeLow).length

/-- Revision 1's tables (R142, R148, R151). -/
def revision1Tables (cfg : Config) : RevisionTables :=
  { inventory := everySignal, activeLow := revision1ActiveLow, pinOf := cfg.pinOf, extra := [] }

/-- The one constraint on revision 2's tables: its inverted set "has fewer members than revision 1's" (R149). -/
def revision2Allowed (t : RevisionTables) : Bool := activeLowCount t < signalCount revision1ActiveLow

/-- Revision 2's tables where they are supplied. DESIGN CHOICE, log entry 34: tables that break R149's one constraint are no
revision 2 tables, and count as not supplied. -/
def suppliedTables (cfg : Config) : Option RevisionTables := cfg.rev2.filter revision2Allowed

/-- The tables of the configured revision; revision 2's are an argument (R149). -/
def revisionTables (cfg : Config) : Except CodecError RevisionTables :=
  match cfg.revision with
  | .one => .ok (revision1Tables cfg)
  | .two =>
    match suppliedTables cfg with
    | some t => .ok t
    | none => .error .refusedRevision

/-- `translate` (R143): no error for a valid instruction (R230), refused for one that fails `is_valid`; the signals are those
of the configured revision's inventory. DESIGN CHOICE, log entry 34: a signal that the instruction's rule asserts and the supplied
inventory of revision 2 lacks is left out of the control word, and the instruction is not refused for it. A valid MOV or LDI with a read-only destination, which no byte decodes to, asserts the
lines that exist (log entry 19). DESIGN CHOICE, log entry 35: an invalid instruction is `RefusedInvalid` also where the
revision's tables are not supplied. -/
def translateInstr (cfg : Config) (i : Instr) : Except CodecError SignalSet :=
  if isValid i then
    match revisionTables cfg with
    | .ok t => .ok (meet (controlWord i) t.inventory)
    | .error e => .error e
  else .error .refusedInvalid

/-- `invert_active_low(S) = S xor ACTIVE_LOW` (R147). -/
def invertActiveLow (t : RevisionTables) (sigs : SignalSet) : SignalSet := symmDiffSet sigs t.activeLow

end Sys2Proof.Machine
end

