-- ==== Sys2Proof/Machine/Stream.lean ====
section
/-! DEFINITION. The boundary of the byte-stream collaborator: read a byte, end of file, read failure; write a byte, write
failure (00_scope.md R5; 30_encoding.md R113, R125, R128). -/

namespace Sys2Proof.Machine

/-- How an input stream ends: "plain end-of-file" or "a genuine I/O error" (R113). -/
inductive InputEnd where
  | eof
  | failure
  deriving DecidableEq, Repr

/-- An input stream: its bytes in order and how it ends. -/
structure InStream where
  bytes : List Byte
  ending : InputEnd
  deriving DecidableEq, Repr

/-- An output stream: what was written so far, in order, and how many more bytes it takes (`none`: no limit) before a write
fails. -/
structure OutStream where
  sent : List Byte
  room : Option Nat
  deriving DecidableEq, Repr

/-- An output stream nothing has been written to and whose writes never fail. -/
def OutStream.fresh : OutStream := { sent := [], room := none }

/-- Write one byte; `none` is a write failure. -/
def OutStream.put (out : OutStream) (b : Byte) : Option OutStream :=
  match out.room with
  | none => some { out with sent := out.sent ++ [b] }
  | some 0 => none
  | some (n + 1) => some { sent := out.sent ++ [b], room := some n }

/-- Write bytes in order up to the first failure: whether all were written, and the stream after. -/
def OutStream.putAll (out : OutStream) : List Byte → Bool × OutStream
  | [] => (true, out)
  | b :: bs =>
    match out.put b with
    | some out1 => OutStream.putAll out1 bs
    | none => (false, out)

end Sys2Proof.Machine
end

