-- ==== Sys2Proof/Machine/ControlRom.lean ====
section
/-! DEFINITION. The pin layout, the control-ROM pages and the ports of the codec block (40_control_word.md R140,
R150-R161). -/

namespace Sys2Proof.Machine

/-- The level of a pin: 1 when some signal of the inverted set is wired to it, 0 otherwise (R150). `sigs` is the inverted set's
part among the 27 signals; beyond them it holds the revision's active-low ones, which nothing asserts. -/
def pinLevel (t : RevisionTables) (sigs : SignalSet) (n : Fin 24) : Bool :=
  (allSignals.any fun sig => t.pinOf sig == some n && asserted sigs sig) ||
    t.extra.any fun e => e.pin == some n && e.activeLow

/-- `map_to_pins` (R150): the 24 pin levels. -/
def mapToPins (t : RevisionTables) (sigs : SignalSet) : Vector Bool 24 :=
  Vector.ofFn (pinLevel t sigs)

/-- Pin `8p + j` (R153). -/
def pinIndex (p : Fin 3) (j : Fin 8) : Fin 24 := ⟨8 * p.val + j.val, by omega⟩

/-- The byte whose bit `j` is `f j`, bit 0 the least significant. -/
def byteOfBits (f : Fin 8 → Bool) : Byte :=
  BitVec.ofBool (f 7) ++ BitVec.ofBool (f 6) ++ BitVec.ofBool (f 5) ++ BitVec.ofBool (f 4) ++
    BitVec.ofBool (f 3) ++ BitVec.ofBool (f 2) ++ BitVec.ofBool (f 1) ++ BitVec.ofBool (f 0)

/-- `PAGE[p]`: pins `8p` to `8p + 7`, pin `8p + j` at bit `j` (R140, R153). -/
def pageByte (pins : Vector Bool 24) (p : Fin 3) : Byte := byteOfBits fun j => pins[pinIndex p j]

/-- The 24 pin levels of an instruction byte: decode, translate, invert, map (R158). DESIGN CHOICE, log entry 34: a signal that
revision 2's tables invert and wire but leave out of its inventory is inverted and wired as R147 and R150 say, so that its pin
is always 1. -/
def pinsOfByte (cfg : Config) (b : Byte) : Except CodecError (Vector Bool 24) :=
  match revisionTables cfg with
  | .error e => .error e
  | .ok t =>
    match translateInstr cfg (decode cfg.hltRstSwap b) with
    | .error e => .error e
    | .ok sigs => .ok (mapToPins t (invertActiveLow t sigs))

/-- `rom_page(i, p)` (R158): byte `b` of page `p`. -/
def romPage (cfg : Config) (b : Byte) (p : Fin 3) : Except CodecError Byte :=
  match pinsOfByte cfg b with
  | .error e => .error e
  | .ok pins => .ok (pageByte pins p)

/-- The page a selector digit names; 3 to 9 name none (R159). A selector above 9 is no single digit and names none either,
log entry 28. -/
def pageOfSelector (selector : Nat) : Option (Fin 3) := if h : selector < 3 then some ⟨selector, h⟩ else none

/-- The errors of `generate_rom_page` (R230). -/
inductive RomError where
  /-- `PageOutOfRange` (R159). -/
  | pageOutOfRange
  /-- `StreamFailure`: a write failed. -/
  | streamFailure
  /-- The translator refused. -/
  | codec (e : CodecError)
  deriving DecidableEq, Repr

/-- The first `n` instruction bytes' ROM bytes of page `p`, in order. -/
def romBytes (cfg : Config) (p : Fin 3) : Nat → Except CodecError (List Byte)
  | 0 => .ok []
  | n + 1 =>
    match romBytes cfg p n with
    | .error e => .error e
    | .ok bs =>
      match romPage cfg (BitVec.ofNat 8 n) p with
      | .error e => .error e
      | .ok b => .ok (bs ++ [b])

/-- `generate_rom_page` (R158, R159): write `rom_page(0, p)` to `rom_page(255, p)`; nothing is written for a selector out of
range. DESIGN CHOICE, log entry 35: a selector out of range is `PageOutOfRange` also where the revision's tables are not
supplied. -/
def generateRomPage (cfg : Config) (selector : Nat) (out : OutStream) : Except RomError Unit × OutStream :=
  match pageOfSelector selector with
  | none => (.error .pageOutOfRange, out)
  | some p =>
    match romBytes cfg p 256 with
    | .error e => (.error (.codec e), out)
    | .ok bs =>
      match out.putAll bs with
      | (true, out1) => (.ok (), out1)
      | (false, out1) => (.error .streamFailure, out1)

/-- `TGT`: the jump target id (R76, R140); where the byte is neither JNZ nor JEZ no rule gives the lines a meaning, and they
are free (log entry 29). -/
def tgtPort (cfg : Config) (b : Byte) : Reg4 :=
  match decode cfg.hltRstSwap b with
  | .jnz _ => loField b
  | .jez _ => jezTarget b
  | .mov _ _ => cfg.idleTgt b
  | .ldi _ _ => cfg.idleTgt b
  | .jni _ => cfg.idleTgt b
  | .hlt => cfg.idleTgt b
  | .rst => cfg.idleTgt b

/-- The output ports of the codec block for an instruction byte on `IR` (R140). -/
structure Ports where
  op : OpLines
  dst : BitVec 3
  src : BitVec 4
  tgt : Reg4
  immv : Imm4
  cw : SignalSet
  pin : Vector Bool 24
  page : Vector Byte 3
  deriving DecidableEq, Repr

/-- The codec block: every output is a function of `IR` alone (R3, R140). -/
def codecPorts (cfg : Config) (ir : Byte) : Except CodecError Ports :=
  match translateInstr cfg (decode cfg.hltRstSwap ir) with
  | .error e => .error e
  | .ok cw =>
    match pinsOfByte cfg ir with
    | .error e => .error e
    | .ok pins =>
      .ok
        { op := gateOp cfg.hltRstSwap ir
          dst := hiField ir
          src := loField ir
          tgt := tgtPort cfg ir
          immv := loField ir
          cw := cw
          pin := pins
          page := Vector.ofFn (pageByte pins) }

end Sys2Proof.Machine
end

