-- ==== Sys2Proof/Machine/Cycle.lean ====
section
/-! DEFINITION. The machine cycle, and the control-ROM pages it runs with (70_reset_and_hazards.md R264, R270;
20_memory.md R65; 60_exceptions.md R233, R234). -/

namespace Sys2Proof.Machine

/-- The byte that installed page `p` returns at an instruction byte (R65). -/
def State.romByte (cfg : Config) (s : State) (p : Fin 3) (b : Byte) : Except CodecError Byte :=
  match s.rom[p] with
  | .generated => romPage cfg b p
  | .programmed bytes => .ok (bytes[b.toNat]'b.isLt)

/-- The byte is what `rom_page` gives (R158). -/
def romByteIs (cfg : Config) (p : Fin 3) (b y : Byte) : Bool :=
  match romPage cfg b p with
  | .ok x => x == y
  | .error _ => false

/-- The page is the one that the translator produces under the machine's revision and pin table (R264). -/
def pageIsGenerated (cfg : Config) (p : Fin 3) : RomPage → Bool
  | .generated => true
  | .programmed bytes => (List.finRange 256).all fun n => romByteIs cfg p (BitVec.ofFin n) bytes[n]

/-- Why no instruction can run (R149, R234, R264): the revision's tables are not supplied, or an installed page is not the one
the translator produces. DESIGN CHOICE, log entry 35: the first is answered where both hold. -/
def romRefusal (cfg : Config) (s : State) : Option Refusal :=
  match revisionTables cfg with
  | .error _ => some .revisionNotSupplied
  | .ok _ =>
    if pageIsGenerated cfg 0 s.rom[0] && pageIsGenerated cfg 1 s.rom[1] && pageIsGenerated cfg 2 s.rom[2] then none
    else some .romPagesDiffer

/-- Decode a fetched byte and run the instruction. -/
def runByte (swap : Bool) (run : Instr → State → Result) (b : Byte) (s : State) : Result :=
  match decodeChecked swap b with
  | .ok i => run i s
  | .error _ => .refused .invalidInstruction

/-- One machine cycle (R270). An external reset wins over everything (R233); a halted machine executes nothing and keeps its
registers and `pc` (R210, R243; log entry 6); otherwise the byte at `pc` is fetched, decoded and run. -/
def cycle (cfg : Config) (run : Instr → State → Result) (s : State) : Result :=
  if s.extReset then .next s.takeExternalReset
  else if s.halted then .next s
  else
    match romRefusal cfg s with
    | some r => .refused r
    | none => runByte cfg.hltRstSwap run s.fetch s

end Sys2Proof.Machine
end

