-- ==== Sys2Proof/Machine/ControlTransfer.lean ====
section
/-! DEFINITION. Control transfer: JEZ, JNZ and JNI (42_control_transfer.md). The condition register is read first, and a
target register only when the jump is taken (R190, R203). -/

namespace Sys2Proof.Machine

/-- A jump through register `t` with the condition's polarity `jneg` (R190, R192, R194, R203). -/
def jumpReg (cfg : Config) (jneg : Bool) (t : Reg4) (s : State) : Result :=
  if isRegister t then
    if taken cfg jneg s then
      match driveReg cfg [conditionReg] t s with
      | .error r => .refused r
      | .ok (v, s1) => .next (s1.jumpTo v)
    else .next (s.noteReads [conditionReg]).advance
  else .refused .invalidInstruction

/-- JEZ at any parameters (R195). -/
def jezIn (cfg : Config) (t : Reg4) (s : State) : Result := jumpReg cfg true t s

/-- JNZ at any parameters (R198). -/
def jnzIn (cfg : Config) (t : Reg4) (s : State) : Result := jumpReg cfg false t s

/-- JNI at any parameters (R200): to the zero-extended immediate when the condition holds. -/
def jniIn (cfg : Config) (imm : Imm4) (s : State) : Result :=
  let s1 := s.noteReads [conditionReg]
  if taken cfg false s then .next (s1.jumpTo (immValue imm)) else .next s1.advance

/-- JEZ, jump-if-zero (R195, R197). -/
def execJez (t : Reg4) (s : State) : Result := jezIn defaultConfig t s

/-- JNZ, jump-if-nonzero (R198, R199). -/
def execJnz (t : Reg4) (s : State) : Result := jnzIn defaultConfig t s

/-- JNI, jump-to-immediate-if-condition (R200, R202). -/
def execJni (imm : Imm4) (s : State) : Result := jniIn defaultConfig imm s

end Sys2Proof.Machine
end

