-- ==== Sys2Proof/Machine/DataMovement.lean ====
section
/-! DEFINITION. Data movement: MOV and LDI (41_data_movement.md). Each source is read before the destination is written
(R270). -/

namespace Sys2Proof.Machine

/-- MOV at any parameters (R170): `v <- x[s]; x[d] <- v; pc <- (pc + 1) mod 256`. -/
def movIn (cfg : Config) (dst src : Reg4) (s : State) : Result :=
  if isValid (.mov dst src) then
    match readReg cfg [] src s with
    | .error r => .refused r
    | .ok (v, s1) =>
      match writeReg cfg dst v s1 with
      | .error r => .refused r
      | .ok s2 => .next s2.advance
  else .refused .invalidInstruction

/-- LDI at any parameters (R175): `x[d] <- zext_8(k); pc <- (pc + 1) mod 256`. LDI reads no register. -/
def ldiIn (cfg : Config) (dst : Reg4) (imm : Imm4) (s : State) : Result :=
  if isValid (.ldi dst imm) then
    match writeReg cfg dst (immValue imm) s with
    | .error r => .refused r
    | .ok s1 => .next s1.advance
  else .refused .invalidInstruction

/-- MOV, move-register (R170-R172). -/
def execMov (dst src : Reg4) (s : State) : Result := movIn defaultConfig dst src s

/-- LDI, load-immediate (R175-R177). -/
def execLdi (dst : Reg4) (imm : Imm4) (s : State) : Result := ldiIn defaultConfig dst imm s

end Sys2Proof.Machine
end

