-- ==== Sys2Proof/Machine/MachineControl.lean ====
section
/-! DEFINITION. Machine control: HLT and RST (43_machine_control.md). Neither reads a register (R212, R217). -/

namespace Sys2Proof.Machine

/-- HLT, halt (R210): `halted <- true`; `pc` is left at the HLT's own address. -/
def execHlt (s : State) : Result := .next s.halt

/-- RST, reset (R215): `state <- reset_state`. -/
def execRst (s : State) : Result := .next s.takeReset

end Sys2Proof.Machine
end

