-- ==== Sys2Proof/Machine/Dispatch.lean ====
section
/-! DEFINITION. One arm per constructor of Instr. -/

namespace Sys2Proof.Machine

def exec (i : Instr) (s : State) : Host.Outcome State Fault Refusal :=
  match i with
  | .mov dst src => Sys2Proof.Machine.execMov dst src s
  | .ldi dst imm => Sys2Proof.Machine.execLdi dst imm s
  | .jez t => Sys2Proof.Machine.execJez t s
  | .jnz t => Sys2Proof.Machine.execJnz t s
  | .jni imm => Sys2Proof.Machine.execJni imm s
  | .hlt => Sys2Proof.Machine.execHlt s
  | .rst => Sys2Proof.Machine.execRst s

end Sys2Proof.Machine
end

