-- ==== Sys2Proof/Machine/Step.lean ====
section
/-! DEFINITION. One step of the machine: one machine cycle at the spec's defaults (70_reset_and_hazards.md R270). -/

namespace Sys2Proof.Machine

/-- One machine cycle of the machine at the spec's defaults. -/
def step (s : State) : Host.Outcome State Fault Refusal :=
  cycle defaultConfig exec s

/-- `s` with the instruction of the table word `w` where the next step fetches (log entry 21). -/
def State.withFetchWord (s : State) (nbits w : Nat) : State := s.placeInstruction (tableByte nbits w)

end Sys2Proof.Machine
end

