-- ==== Sys2Proof/Machine/Datapath.lean ====
section
/-! DEFINITION. The meaning of the control bits on the datapath (40_control_word.md R145): what one machine cycle does with
a control word and the instruction byte. The meanings of Machine/<Family>.lean are written from the instructions' own rules;
that the two agree is a statement. -/

namespace Sys2Proof.Machine

/-- The first asserted output enable, lowest id first (R144: at most one is asserted). -/
def outputEnabled (cw : SignalSet) : Option Reg4 :=
  ([0, 1, 2, 3, 4, 5, 6, 7, 8, 9, 10, 11, 12, 13] : List Reg4).find? fun r => cw.oe.getLsbD r.toNat

/-- The first asserted input enable, lowest id first (R144: at most one is asserted). -/
def inputEnabled (cw : SignalSet) : Option Reg4 :=
  ([0, 1, 2, 3, 4, 5, 6, 7] : List Reg4).find? fun r => cw.ie.getLsbD r.toNat

/-- The bus value of a cycle (R145): `IMM` drives `zext_8(IR[3:0])`, `OE[r]` drives register `r`, and `ALU_SUB` switches the
ALU behind `OE[11]` to the difference; a bus nothing drives has no defined value, a draw (D22). -/
def busValue (cfg : Config) (earlier : List (Fin 6)) (cw : SignalSet) (ir : Byte) (s : State) :
    Except Refusal (Byte × State) :=
  if cw.imm then .ok (immValue (loField ir), s.noteReads earlier)
  else
    match outputEnabled cw with
    | some r =>
      if r = 11#4 then readNamed cfg earlier (if cw.aluSub then .difference else .sum) s
      else driveReg cfg earlier r s
    | none => .ok (drawValue cfg earlier s)

/-- One cycle under a control word (R145, R270): `RST` resets the machine, `HLT` stops it, `IE[7]` loads the bus into `pc`
when the jump condition holds, and `IE[r]` loads it into register `r`. -/
def runControlWord (cfg : Config) (cw : SignalSet) (ir : Byte) (s : State) : Result :=
  if cw.rst then .next s.takeReset
  else if cw.hlt then .next s.halt
  else
    match inputEnabled cw with
    | none => .next s.advance
    | some d =>
      if d = 7#4 then
        if taken cfg cw.jneg s then
          match busValue cfg [conditionReg] cw ir s with
          | .error r => .refused r
          | .ok (v, s1) => .next (s1.jumpTo v)
        else .next (s.noteReads [conditionReg]).advance
      else
        match busValue cfg [] cw ir s with
        | .error r => .refused r
        | .ok (v, s1) =>
          match writeReg cfg d v s1 with
          | .error r => .refused r
          | .ok s2 => .next s2.advance

end Sys2Proof.Machine
end

