-- ==== Sys2Proof/Machine/HostPort.lean ====
section
/-! DEFINITION. The host's moves between steps: program load, ROM programming, external reset, observation
(70_reset_and_hazards.md R264, R275). The fifth, supplying the input latch's values, is `Config.input`. -/

namespace Sys2Proof.Machine

/-- Why the host's move is not one of the model's. -/
inductive HostError where
  /-- The machine is neither held in reset nor halted (R275). -/
  | machineRunning
  /-- The file is longer than program memory (R50: `n <= 256`). -/
  | fileTooLong
  /-- The file is no page of 256 bytes (R65, R275). -/
  | notAPage
  deriving DecidableEq, Repr

/-- The host may write program memory and ROM pages: the machine is held in reset or halted (R275). -/
def State.hostMayWrite (s : State) : Bool := s.extReset || s.halted

/-- Assert the external reset input (R262, R275). -/
def State.assertReset (s : State) : State := { s with extReset := true }

/-- Load a machine-code file: byte `k` at address `k` (R50); the addresses past it keep their bytes. -/
def State.loadProgram (s : State) (file : List Byte) : Except HostError State :=
  if s.hostMayWrite then
    if file.length ≤ 256 then .ok { s with imem := s.imem.writeBytes 0 file } else .error .fileTooLong
  else .error .machineRunning

/-- Program one control-ROM page from a file of 256 bytes, which R264 asks to be `generate_rom_page` output (R65, R275).
`romRefusal` is what comes of another one. -/
def State.programRom (s : State) (p : Fin 3) (file : List Byte) : Except HostError State :=
  if s.hostMayWrite then
    if h : file.length = 256 then .ok { s with rom := s.rom.set p (.programmed ⟨file.toArray, by simpa using h⟩) }
    else .error .notAPage
  else .error .machineRunning

/-- What the host sees: `halted`, and the registers and `pc` of a final state (R275: "the final state of rule R274"). -/
structure Observation where
  halted : Bool
  final : Option (Vector (Option Byte) 6 × Byte)
  deriving DecidableEq, Repr

/-- Observe the machine (R274, R275). -/
def State.observe (s : State) : Observation :=
  { halted := s.halted, final := if s.final then some (Vector.ofFn s.st, s.pc) else none }

end Sys2Proof.Machine
end

