-- ==== Sys2Proof/Machine/Tokenizer.lean ====
section
/-! DEFINITION. The assembler's tokenizer: single-pass, one byte at a time (30_encoding.md R110-R117). -/

namespace Sys2Proof.Machine

/-- The errors of the text front end, by name (R129). -/
inductive AsmError where
  | invalidCharacter
  | tokenTooLong
  | lineTooLong
  /-- A read failure (tokenizer) or a write failure (output). -/
  | streamFailure
  | invalidOperation
  | invalidRegister
  | immBase
  | immDigit
  | immLength
  | immOverflow
  | invalidFormat
  | invalidInstruction
  | illegalDestination (d : Reg4)
  deriving DecidableEq, Repr

/-- A case-folded word and its two flags (R115). -/
structure Token where
  text : List Byte
  endsLine : Bool
  endsInput : Bool
  deriving DecidableEq, Repr

/-- Newline (R113). -/
def newlineByte : Byte := 0x0A#8

/-- Space (R111, R126). -/
def spaceByte : Byte := 0x20#8

/-- `;` (R112). -/
def commentByte : Byte := ascii ';'

/-- Space, tab, carriage return, form feed, vertical tab (R111). -/
def isWhitespace (b : Byte) : Bool :=
  b == spaceByte || b == 0x09#8 || b == 0x0D#8 || b == 0x0C#8 || b == 0x0B#8

/-- ASCII case folding: `A` to `Z` become `a` to `z` (R110). -/
def foldCase (b : Byte) : Byte := if 0x41 ≤ b.toNat ∧ b.toNat ≤ 0x5A then b + 0x20#8 else b

/-- The tokenizer inside a line: the tokens completed, the characters of the current one, whether a comment has begun, and
whether the line has a byte at all. -/
structure LineState where
  tokens : List Token
  cur : List Byte
  comment : Bool
  started : Bool
  deriving DecidableEq, Repr

/-- The start of a line. -/
def LineState.fresh : LineState := { tokens := [], cur := [], comment := false, started := false }

/-- What one byte does to the tokenizer. -/
inductive Scan where
  | more (st : LineState)
  | line (tokens : List Token)
  | error (e : AsmError)
  deriving DecidableEq, Repr

/-- Close the line (R112, R113, R115): the current word ends it; with no word pending the line ends in an empty token, but
for a line whose three slots are filled (R116). -/
def closeLine (st : LineState) (endsInput : Bool) : List Token :=
  if st.cur = [] ∧ st.tokens.length = 3 then st.tokens else st.tokens ++ [⟨st.cur, true, endsInput⟩]

/-- One byte (R110-R116). A byte with its high bit set is an error wherever in the line it stands, a comment included (R110:
"any byte with its high bit set is rejected"); a fourth word is an error at its first character (log entry 25). -/
def scanByte (st : LineState) (b : Byte) : Scan :=
  if b = newlineByte then .line (closeLine st false)
  else if b.getLsbD 7 then .error .invalidCharacter
  else if st.comment then .more st
  else if isWhitespace b then
    if st.cur = [] then .more { st with started := true }
    else .more { st with tokens := st.tokens ++ [⟨st.cur, false, false⟩], cur := [], started := true }
  else if b = commentByte then .more { st with comment := true, started := true }
  else if st.tokens.length = 3 then .error .lineTooLong
  else if st.cur.length = 6 then .error .tokenTooLong
  else .more { st with cur := st.cur ++ [foldCase b], started := true }

/-- The words of a line: its non-empty tokens (R115, R121). -/
def lineWords (tokens : List Token) : List (List Byte) := (tokens.map Token.text).filter fun w => w != []

/-- Tokenize one line of text that ends at the end of the list, as at end of input. -/
def scanLine (st : LineState) : List Byte → Except AsmError (List Token)
  | [] => .ok (closeLine st true)
  | b :: bs =>
    match scanByte st b with
    | .error e => .error e
    | .line tokens => .ok tokens
    | .more st1 => scanLine st1 bs

end Sys2Proof.Machine
end

