-- ==== Sys2Proof/Machine/Parser.lean ====
section
/-! DEFINITION. The line parser: mnemonics, operand count, register and immediate spellings (30_encoding.md R118-R123, R130),
and the step from a line to its byte. -/

namespace Sys2Proof.Machine

/-- The seven operations, as the mnemonic selects them (R13). -/
inductive Opcode where
  | mov
  | ldi
  | jez
  | jnz
  | jni
  | hlt
  | rst
  deriving DecidableEq, Repr

/-- The mnemonic of an operation, in lower case (R13). -/
def mnemonicText : Opcode → List Byte
  | .mov => [ascii 'm', ascii 'o', ascii 'v']
  | .ldi => [ascii 'l', ascii 'd', ascii 'i']
  | .jez => [ascii 'j', ascii 'e', ascii 'z']
  | .jnz => [ascii 'j', ascii 'n', ascii 'z']
  | .jni => [ascii 'j', ascii 'n', ascii 'i']
  | .hlt => [ascii 'h', ascii 'l', ascii 't']
  | .rst => [ascii 'r', ascii 's', ascii 't']

/-- The operation a word names, if it is exactly a mnemonic (R119). -/
def opcodeOf (w : List Byte) : Option Opcode :=
  [Opcode.mov, .ldi, .jez, .jnz, .jni, .hlt, .rst].find? fun op => mnemonicText op == w

/-- The 14 register ids (R21). -/
def registerIds : List (Fin 14) := [0, 1, 2, 3, 4, 5, 6, 7, 8, 9, 10, 11, 12, 13]

/-- A register word: a single character, one of the 14 letters (R120). -/
def parseReg (cfg : Config) : List Byte → Except AsmError Reg4
  | [c] =>
    match registerIds.find? fun r => cfg.regLetter r == c with
    | some r => .ok (BitVec.ofNat 4 r.val)
    | none => .error .invalidRegister
  | _ => .error .invalidRegister

/-- `0` to `9`. -/
def decDigit (c : Byte) : Option Nat :=
  if 0x30 ≤ c.toNat ∧ c.toNat ≤ 0x39 then some (c.toNat - 0x30) else none

/-- `0` to `9` and `a` to `f`; the tokenizer has folded the case. -/
def hexDigit (c : Byte) : Option Nat :=
  if 0x61 ≤ c.toNat ∧ c.toNat ≤ 0x66 then some (c.toNat - 0x61 + 10) else decDigit c

/-- The number binary digits spell, most significant first (R122, 90_conflicts.md C9); `none` if one is no binary digit. -/
def binValue (acc : Nat) : List Byte → Option Nat
  | [] => some acc
  | c :: cs =>
    if c = ascii '0' then binValue (2 * acc) cs
    else if c = ascii '1' then binValue (2 * acc + 1) cs
    else none

/-- `0x` and one hex digit (R123). -/
def parseHex : List Byte → Except AsmError Imm4
  | [d] =>
    match hexDigit d with
    | some v => .ok (BitVec.ofNat 4 v)
    | none => .error .immDigit
  | _ => .error .immLength

/-- `0b` and one to four binary digits (R123). -/
def parseBin (ds : List Byte) : Except AsmError Imm4 :=
  if ds.length < 1 ∨ 4 < ds.length then .error .immLength
  else
    match binValue 0 ds with
    | some v => .ok (BitVec.ofNat 4 v)
    | none => .error .immDigit

/-- One or two decimal digits, the first 1 to 9, at most 15 (R123). -/
def parseDec (c : Byte) (rest : List Byte) : Except AsmError Imm4 :=
  match decDigit c with
  | none => .error .immDigit
  | some a =>
    if a = 0 then .error .immDigit
    else
      match rest with
      | [] => .ok (BitVec.ofNat 4 a)
      | [d] =>
        match decDigit d with
        | none => .error .immDigit
        | some e => if 15 < 10 * a + e then .error .immOverflow else .ok (BitVec.ofNat 4 (10 * a + e))
      | _ => .error .immLength

/-- `parse_imm` (R122, R123). No word is empty; the empty list is given the error of a missing digit. -/
def parseImm : List Byte → Except AsmError Imm4
  | [] => .error .immDigit
  | c :: rest =>
    if c = ascii '0' then
      match rest with
      | [] => .ok 0#4
      | base :: ds =>
        if base = ascii 'x' then parseHex ds
        else if base = ascii 'b' then parseBin ds
        else .error .immBase
    else parseDec c rest

/-- A destination or target register and what it makes. -/
def withReg (cfg : Config) (w : List Byte) (f : Reg4 → Except AsmError Instr) : Except AsmError Instr :=
  match parseReg cfg w with
  | .ok r => f r
  | .error e => .error e

/-- An immediate and what it makes. -/
def withImm (w : List Byte) (f : Imm4 → Except AsmError Instr) : Except AsmError Instr :=
  match parseImm w with
  | .ok k => f k
  | .error e => .error e

/-- The operands of an operation: the count first, then each spelling in operand order (R118, R121, R130). -/
def parseOperands (cfg : Config) : Opcode → List (List Byte) → Except AsmError Instr
  | .mov, [d, s] => withReg cfg d fun rd => withReg cfg s fun rs => .ok (.mov rd rs)
  | .mov, _ => .error .invalidFormat
  | .ldi, [d, k] => withReg cfg d fun rd => withImm k fun v => .ok (.ldi rd v)
  | .ldi, _ => .error .invalidFormat
  | .jez, [t] => withReg cfg t fun rt => .ok (.jez rt)
  | .jez, _ => .error .invalidFormat
  | .jnz, [t] => withReg cfg t fun rt => .ok (.jnz rt)
  | .jnz, _ => .error .invalidFormat
  | .jni, [k] => withImm k fun v => .ok (.jni v)
  | .jni, _ => .error .invalidFormat
  | .hlt, [] => .ok .hlt
  | .hlt, _ => .error .invalidFormat
  | .rst, [] => .ok .rst
  | .rst, _ => .error .invalidFormat

/-- Parse the words of a line that is not blank: the mnemonic first (R119, R130). -/
def parseWords (cfg : Config) : List (List Byte) → Except AsmError Instr
  | [] => .error .invalidOperation
  | w :: ops =>
    match opcodeOf w with
    | none => .error .invalidOperation
    | some op => parseOperands cfg op ops

/-- The error of the encoder as the driver reports it (R129). -/
def asmErrorOfEncode : EncodeError → AsmError
  | .invalidInstruction => .invalidInstruction
  | .illegalDestination d => .illegalDestination d

/-- The byte of a line: none for a blank one (R117), else the parser's and then the encoder's result (R130). -/
def assembleWords (cfg : Config) (ws : List (List Byte)) : Except AsmError (Option Byte) :=
  match ws with
  | [] => .ok none
  | w :: ops =>
    match parseWords cfg (w :: ops) with
    | .error e => .error e
    | .ok i =>
      match encode cfg.hltRstSwap i with
      | .ok b => .ok (some b)
      | .error e => .error (asmErrorOfEncode e)

/-- The byte of one line of text. -/
def assembleLine (cfg : Config) (text : List Byte) : Except AsmError (Option Byte) :=
  match scanLine LineState.fresh text with
  | .error e => .error e
  | .ok tokens => assembleWords cfg (lineWords tokens)

end Sys2Proof.Machine
end

