-- ==== Sys2Proof/Machine/Assembler.lean ====
section
/-! DEFINITION. The canonical text, the explanation text, and the two drivers, compile and disassemble (30_encoding.md
R125-R128). -/

namespace Sys2Proof.Machine

/-- The letter of a register id; ids 14 and 15 have none and are never asked for (`is_valid` is checked first). -/
def letterOf (cfg : Config) (r : Reg4) : Byte := if h : r.toNat < 14 then cfg.regLetter ⟨r.toNat, h⟩ else ascii '?'

/-- An immediate in decimal with no leading zero (R126). -/
def decimalText (k : Imm4) : List Byte :=
  if k.toNat < 10 then [BitVec.ofNat 8 (0x30 + k.toNat)] else [ascii '1', BitVec.ofNat 8 (0x30 + (k.toNat - 10))]

/-- "; invalid instruction" (R126). -/
def invalidComment : List Byte :=
  [ascii ';', ascii ' ', ascii 'i', ascii 'n', ascii 'v', ascii 'a', ascii 'l', ascii 'i', ascii 'd', ascii ' '] ++
  [ascii 'i', ascii 'n', ascii 's', ascii 't', ascii 'r', ascii 'u', ascii 'c', ascii 't', ascii 'i', ascii 'o', ascii 'n']

/-- The words of an instruction's canonical text (R118, R126). -/
def formatWords (cfg : Config) : Instr → List (List Byte)
  | .mov d s => [mnemonicText .mov, [letterOf cfg d], [letterOf cfg s]]
  | .ldi d k => [mnemonicText .ldi, [letterOf cfg d], decimalText k]
  | .jez t => [mnemonicText .jez, [letterOf cfg t]]
  | .jnz t => [mnemonicText .jnz, [letterOf cfg t]]
  | .jni k => [mnemonicText .jni, decimalText k]
  | .hlt => [mnemonicText .hlt]
  | .rst => [mnemonicText .rst]

/-- Words separated by one space each (R126). -/
def joinWords : List (List Byte) → List Byte
  | [] => []
  | [w] => w
  | w :: v :: ws => w ++ spaceByte :: joinWords (v :: ws)

/-- `format(i)` (R126). -/
def formatInstr (cfg : Config) (i : Instr) : List Byte :=
  if isValid i then joinWords (formatWords cfg i) else invalidComment

/-- `explain(i)` (R127): a move is `<src letter> > <dst letter>`, HLT and RST are `halt` and `reset`, an invalid instruction
is "invalid instruction"; the other strings are OPEN (log entry 27). -/
def explainInstr (cfg : Config) (i : Instr) : List Byte :=
  if isValid i then
    match i with
    | .mov d s => [letterOf cfg s, spaceByte, ascii '>', spaceByte, letterOf cfg d]
    | .hlt => [ascii 'h', ascii 'a', ascii 'l', ascii 't']
    | .rst => [ascii 'r', ascii 'e', ascii 's', ascii 'e', ascii 't']
    | .ldi d k => cfg.explainText (.ldi d k)
    | .jez t => cfg.explainText (.jez t)
    | .jnz t => cfg.explainText (.jnz t)
    | .jni k => cfg.explainText (.jni k)
  else invalidComment.drop 2

/-- How a compile ends: the count of lines, or the 1-based number of the first line in error and its error (R125). -/
abbrev CompileResult := Except (Nat × AsmError) Nat

/-- Emit what a line gives: nothing for a blank one, else its byte. -/
def emitLine (cfg : Config) (tokens : List Token) (out : OutStream) : Except AsmError OutStream :=
  match assembleWords cfg (lineWords tokens) with
  | .error e => .error e
  | .ok none => .ok out
  | .ok (some b) =>
    match out.put b with
    | some out1 => .ok out1
    | none => .error .streamFailure

/-- The compile driver from the middle of line `n` (R125): every line read is counted, and the first error of any kind ends
it. A last line without a newline counts when it holds a byte (log entry 26). -/
def compileFrom (cfg : Config) (ending : InputEnd) : List Byte → LineState → Nat → OutStream → CompileResult × OutStream
  | [], st, n, out =>
    match ending with
    | .failure => (.error (n, .streamFailure), out)
    | .eof =>
      if st.started then
        match emitLine cfg (closeLine st true) out with
        | .ok out1 => (.ok n, out1)
        | .error e => (.error (n, e), out)
      else (.ok (n - 1), out)
  | b :: bs, st, n, out =>
    match scanByte st b with
    | .error e => (.error (n, e), out)
    | .more st1 => compileFrom cfg ending bs st1 n out
    | .line tokens =>
      match emitLine cfg tokens out with
      | .ok out1 => compileFrom cfg ending bs LineState.fresh (n + 1) out1
      | .error e => (.error (n, e), out)

/-- `compile(input, output)` (R125). -/
def compile (cfg : Config) (inp : InStream) (out : OutStream) : CompileResult × OutStream :=
  compileFrom cfg inp.ending inp.bytes LineState.fresh 1 out

/-- Why a disassembly stopped. -/
inductive DisasmError where
  | readFailure
  | writeFailure
  deriving DecidableEq, Repr

/-- How a disassembly ends: success, or the "implicit byte offset" (R128) and the failure. DESIGN CHOICE, log entry 24: the
offset is the number of input bytes disassembled before the failure, from 0, for a read and for a write failure alike. -/
abbrev DisasmResult := Except (Nat × DisasmError) Unit

/-- The disassemble driver from byte offset `n`: each byte's canonical text and a newline (R128). What `n` counts is log entry
24. -/
def disassembleFrom (cfg : Config) (ending : InputEnd) : List Byte → Nat → OutStream → DisasmResult × OutStream
  | [], n, out =>
    match ending with
    | .eof => (.ok (), out)
    | .failure => (.error (n, .readFailure), out)
  | b :: bs, n, out =>
    match out.putAll (formatInstr cfg (decode cfg.hltRstSwap b) ++ [newlineByte]) with
    | (true, out1) => disassembleFrom cfg ending bs (n + 1) out1
    | (false, out1) => (.error (n, .writeFailure), out1)

/-- `disassemble(input, output)` (R128). -/
def disassemble (cfg : Config) (inp : InStream) (out : OutStream) : DisasmResult × OutStream :=
  disassembleFrom cfg inp.ending inp.bytes 0 out

end Sys2Proof.Machine
end

