-- ==== Sys2Proof/Machine/Generic.lean ====
section
/-! DEFINITION. The machine at any values of the OPEN parameters (00_scope.md R7: "A value marked OPEN is an argument the
model takes"). `exec` and `step` are `execIn` and `stepIn` at the spec's defaults. -/

namespace Sys2Proof.Machine

/-- The meaning of every instruction at any parameters. -/
def execIn (cfg : Config) (i : Instr) (s : State) : Result :=
  match i with
  | .mov dst src => movIn cfg dst src s
  | .ldi dst imm => ldiIn cfg dst imm s
  | .jez t => jezIn cfg t s
  | .jnz t => jnzIn cfg t s
  | .jni imm => jniIn cfg imm s
  | .hlt => execHlt s
  | .rst => execRst s

/-- One machine cycle at any parameters. -/
def stepIn (cfg : Config) (s : State) : Result := cycle cfg (execIn cfg) s

end Sys2Proof.Machine
end

