-- ==== Sys2Proof/Safety.lean ====
section
/-! DEFINITION. What counts as a safe and as a finished run (60_exceptions.md R233, R234; 70_reset_and_hazards.md R274), the
invariant of the state, and the conditions the spec puts on parameters. The strict step is the reference semantics with the
fault of R36 as the spec has it: a run ends at the first read of a register that nothing has written since reset. -/

namespace Sys2Proof.Machine

/-! ## The strict semantics -/

/-- Stop where a fault is recorded (R234: "A fault or refusal is sticky"). The instruction's writes are discarded: a fault
"stops that instruction before any of its writes" (R233). DESIGN CHOICE, log entry 37: a refusal of the instruction stands
before a fault of it. -/
def strict (o : Result) : Result :=
  match o with
  | .next t =>
    match t.faulted with
    | none => .next t
    | some f => .fault f
  | .fault f => .fault f
  | .refused r => .refused r

/-- One machine cycle of the spec's strict semantics. -/
def strictStep (s : State) : Result := strict (step s)

/-- The registers among ids 0 to 5 a read of an id consults: none for an id that names no register. -/
def readSetOf (cfg : Config) (r : Reg4) : List (Fin 6) :=
  match regName r with
  | some n => readSet cfg n
  | none => []

/-- The registers a jump through `t` consults for its target: none where the target is a draw (R194). -/
def targetSetOf (cfg : Config) (t : Reg4) : List (Fin 6) :=
  match regName t with
  | some .difference => []
  | some n => readSet cfg n
  | none => []

/-- The registers among ids 0 to 5 an instruction reads in a state, in the order in which a fault is reported: "the condition
register `x[1]`, then the source or target" (R234); a target only when the jump is taken (R203). -/
def instrReads (cfg : Config) (s : State) : Instr → List (Fin 6)
  | .mov _ src => readSetOf cfg src
  | .ldi _ _ => []
  | .jez t => if taken cfg true s then conditionReg :: targetSetOf cfg t else [conditionReg]
  | .jnz t => if taken cfg false s then conditionReg :: targetSetOf cfg t else [conditionReg]
  | .jni _ => [conditionReg]
  | .hlt => []
  | .rst => []

/-! ## Runs and states -/

/-- Every register among ids 0 to 5 has been written since reset: no read reports anything (R263). -/
def State.initialised (s : State) : Bool := s.written.all id

/-- The revision's tables are supplied, and every installed ROM page returns at every instruction byte what the translator
produces (R149, R264). -/
def State.RomReady (cfg : Config) (s : State) : Prop :=
  (∃ t, revisionTables cfg = .ok t) ∧ ∀ (p : Fin 3) (b : Byte), s.romByte cfg p b = romPage cfg b p

/-- The next machine cycle fetches and runs an instruction. -/
def State.Running (cfg : Config) (s : State) : Prop := s.extReset = false ∧ s.halted = false ∧ s.RomReady cfg

/-- The invariant of the state: program memory is in its canonical form, and a register that nothing has written since reset
holds its reset value. -/
def State.Inv (s : State) : Prop := Memory.wf s.imem = true ∧ ∀ k : Fin 6, s.written[k] = false → s.regs[k] = resetRegs[k]

/-- Two states that are the same but for the values of registers that nothing has written since reset. -/
def SameButUnwritten (s s' : State) : Prop :=
  s' = { s with regs := s'.regs } ∧ ∀ k : Fin 6, s.written[k] = true → s'.regs[k] = s.regs[k]

/-! ## Conditions on parameters -/

/-- `JE_FN` and `SHIFT_FN` depend on the registers among ids 0 to 5 that they are said to read, and on no other (R263). -/
def DerivedReadsOnly (cfg : Config) : Prop :=
  ∀ s s' : State, s' = { s with regs := s'.regs } →
    ((∀ k ∈ jumpEnableReads cfg, s'.regs[k] = s.regs[k]) → jumpEnable cfg s' = jumpEnable cfg s) ∧
    ((∀ k ∈ cfg.shiftReads, s'.regs[k] = s.regs[k]) → cfg.shiftFn s' = cfg.shiftFn s)

/-- "two signals never share a pin" (R151). -/
def PinsInjective (pinOf : Signal → Option (Fin 24)) : Prop :=
  ∀ a b : Signal, ∀ n : Fin 24, pinOf a = some n → pinOf b = some n → a = b

/-- A byte that the tokenizer takes into a word as it is (R110, R111, R114). -/
def isWordChar (b : Byte) : Bool :=
  b != newlineByte && !b.getLsbD 7 && !isWhitespace b && b != commentByte && foldCase b == b

/-- `REG_LETTER` is injective (R7, D2) and each letter is one character of a word (R120). -/
def LettersLawful (cfg : Config) : Prop :=
  (∀ r r' : Fin 14, cfg.regLetter r = cfg.regLetter r' → r = r') ∧ ∀ r : Fin 14, isWordChar (cfg.regLetter r) = true

end Sys2Proof.Machine
end

