-- ==== Sys2Proof/Certificates/Slice0/Obligations.lean ====
section
/-! DEFINITION. The statements for the provers, from the numbered rules of spec/. A statement about `exec` or `step` is about
the machine at the spec's default parameters; one about `execIn`, `stepIn` or a codec function holds for every `Config`. What a
free value is (`Config.draw`, `Config.input`, `Config.shiftFn`), no statement says. -/

open Sys2Proof Sys2Proof.Machine

/-! ## Encoding -/

/-- R87: `decode` inverts `encode` on every instruction the encoder accepts, and `encode` inverts `decode` on every byte; for
both values of `HLT_RST_SWAP` (D1: "every claim should be stated for both"). -/
def Obligations.DecodeAndEncodeAgree : Prop :=
  (∀ (swap : Bool) (i : Instr), wellFormed i = true → ∃ b, encode swap i = .ok b ∧ decode swap b = i) ∧
  (∀ (swap : Bool) (b : Byte), wellFormed (decode swap b) = true ∧ encode swap (decode swap b) = .ok b)

/-- R84: the two errors of `encode`, each exactly where the rule puts it. -/
def Obligations.EncoderErrorsExactly : Prop :=
  ∀ (swap : Bool) (i : Instr),
    (encode swap i = .error .invalidInstruction ↔ isValid i = false) ∧
    (∀ d : Reg4, encode swap i = .error (.illegalDestination d) ↔
      isValid i = true ∧ 7 ≤ d.toNat ∧ ((∃ src, i = .mov d src) ∨ ∃ k, i = .ldi d k)) ∧
    ((∃ b, encode swap i = .ok b) ↔ wellFormed i = true)

/-- R76: the gate equations are the decoder: the one opcode line set is that of the decoded instruction, and the field outputs
are its operands. -/
def Obligations.GateEquationsAreTheDecoder : Prop :=
  ∀ (cfg : Config) (b : Byte),
    gateOp cfg.hltRstSwap b = opLines (decode cfg.hltRstSwap b) ∧
    match decode cfg.hltRstSwap b with
    | .mov d r => d = (b.extractLsb' 4 3).zeroExtend 4 ∧ r = b.extractLsb' 0 4
    | .ldi d k => d = (b.extractLsb' 4 3).zeroExtend 4 ∧ k = b.extractLsb' 0 4
    | .jez t => t = tgtPort cfg b ∧ t.toNat = 8 * (b.getLsbD 0).toNat + (b.extractLsb' 4 3).toNat
    | .jnz t => t = tgtPort cfg b ∧ t = b.extractLsb' 0 4
    | .jni k => k = b.extractLsb' 0 4
    | .hlt => True
    | .rst => True

/-- R89: one byte of each opcode, from the byte map and from the encodings written out. -/
def Obligations.ByteMapSamples : Prop :=
  decode false 0x01#8 = .mov 0 1 ∧ decode false 0x2C#8 = .mov 2 12 ∧ decode false 0x85#8 = .ldi 0 5 ∧
  decode false 0x5F#8 = .jez 13 ∧ decode false 0x7E#8 = .jez 7 ∧ decode false 0x72#8 = .jnz 2 ∧
  decode false 0xF2#8 = .jni 2 ∧ decode false 0x6F#8 = .hlt ∧ decode false 0x7F#8 = .rst

/-- R83: how many of the 256 bytes each opcode takes. -/
def Obligations.OpcodeByteCounts : Prop :=
  ∀ swap : Bool,
    let count := fun f : OpLines → Bool => (List.range 256).countP fun n => f (opLines (decode swap (BitVec.ofNat 8 n)))
    count OpLines.isMov = 98 ∧ count OpLines.isLdi = 112 ∧ count OpLines.isJez = 14 ∧ count OpLines.isJnz = 14 ∧
      count OpLines.isJni = 16 ∧ count OpLines.isHlt = 1 ∧ count OpLines.isRst = 1

/-! ## The machine cycle -/

/-- R51: the instruction executed at `pc` is `decode(imem[pc])`; a fetch never faults, and the decoded instruction is always
well formed. -/
def Obligations.StepRunsFetchedInstruction : Prop :=
  ∀ (s : State) (i : Instr), s.Running defaultConfig → decode false (s.imem.read s.pc.toNat) = i →
    wellFormed i = true ∧ step s = exec i s

/-- The host's placement: in canonical memory, the next step runs exactly the instruction placed, on the state it was placed
in (log entry 21). -/
def Obligations.PlacedWordRunsNext : Prop :=
  ∀ (s : State) (w : Nat), Memory.wf s.imem = true →
    step (s.withFetchWord 8 w) = exec (decode false (BitVec.ofNat 8 w)) (s.withFetchWord 8 w)

/-- R233, R262, R260: an external reset wins over the cycle's instruction and over halt. The pulse form of the input is the
model's choice, log entry 7; the registers' values after reset are log entry 1. -/
def Obligations.ExternalResetWins : Prop :=
  ∀ s : State, s.extReset = true →
    step s = .next { s with regs := Vector.replicate 6 0#8, written := Vector.replicate 6 false, pc := 0#8, halted := false,
                            extReset := false }

/-- R210, R243: while halted, no instruction runs and nothing changes. That the cycle is an idle one is log entry 6. -/
def Obligations.HaltedMachineIsIdle : Prop :=
  ∀ s : State, s.extReset = false → s.halted = true → step s = .next s

/-- R149, R234, R264: with revision 2 and no tables supplied, or with an installed ROM page that does not return the
translator's byte at some instruction byte, no instruction runs. Refusing every such page, whatever it came from, and the order
of the two refusals are the model's choices, log entries 17 and 35. -/
def Obligations.UnusableRomPagesRefuse : Prop :=
  ∀ (cfg : Config) (s : State), s.extReset = false → s.halted = false →
    (cfg.revision = .two → suppliedTables cfg = none → stepIn cfg s = .refused .revisionNotSupplied) ∧
    (∀ (p : Fin 3) (b : Byte), (cfg.revision = .two → suppliedTables cfg ≠ none) →
      s.romByte cfg p b ≠ romPage cfg b p → stepIn cfg s = .refused .romPagesDiffer)

/-! ## What the instructions do -/

/-- R170, R24: MOV between storage registers, a register to itself included. Going on where the source is unwritten is the
model's choice, log entry 2. -/
def Obligations.MovBetweenStorage : Prop :=
  ∀ (d k : Fin 6) (s : State),
    exec (.mov (storeId d) (storeId k)) s =
      .next { s with regs := s.regs.set d s.regs[k], written := s.written.set d true, pc := s.pc + 1#8,
                     faulted := s.faulted.or (if s.written[k] then none else some (.unwrittenRegister k)) }

/-- R172, R31: MOV from the sum and the difference; the operands are read before the destination is written. Going on where an
operand is unwritten is log entry 2; that id 4 is recorded before id 5 is log entry 36. -/
def Obligations.MovFromSumAndDifference : Prop :=
  ∀ (d : Fin 6) (s : State),
    exec (.mov (storeId d) 11#4) s =
      .next { s with regs := s.regs.set d (s.regs[4] + s.regs[5]), written := s.written.set d true, pc := s.pc + 1#8,
                     faulted := s.faulted.or (firstUnwritten s [4, 5]) } ∧
    exec (.mov (storeId d) 12#4) s =
      .next { s with regs := s.regs.set d (s.regs[4] - s.regs[5]), written := s.written.set d true, pc := s.pc + 1#8,
                     faulted := s.faulted.or (firstUnwritten s [4, 5]) }

/-- R172, R27, R32: MOV from the program counter (its own address, `PC_READ_OFFSET = 0`, log entry 13) and from zero. -/
def Obligations.MovFromPcAndZero : Prop :=
  ∀ (d : Fin 6) (s : State),
    exec (.mov (storeId d) 7#4) s =
      .next { s with regs := s.regs.set d s.pc, written := s.written.set d true, pc := s.pc + 1#8 } ∧
    exec (.mov (storeId d) 13#4) s =
      .next { s with regs := s.regs.set d 0#8, written := s.written.set d true, pc := s.pc + 1#8 }

/-- R172, R29, R30: MOV from the jump-enable bit (default, log entry 12) and from the shift value, whatever `SHIFT_FN` is
(log entry 14). Going on where a register read is unwritten is log entry 2. -/
def Obligations.MovFromJumpEnableAndShift : Prop :=
  ∀ (d : Fin 6) (s : State),
    exec (.mov (storeId d) 9#4) s =
      .next { s with regs := s.regs.set d (if s.regs[1] = 0#8 then 0#8 else 1#8), written := s.written.set d true,
                     pc := s.pc + 1#8, faulted := s.faulted.or (firstUnwritten s [1]) } ∧
    exec (.mov (storeId d) 10#4) s =
      .next { s with regs := s.regs.set d (defaultConfig.shiftFn s), written := s.written.set d true, pc := s.pc + 1#8,
                     faulted := s.faulted.or (firstUnwritten s defaultConfig.shiftReads) }

/-- R172, R28, R33: MOV from the write-only register and from the input latch writes a fresh free value and uses it up (log
entries 4 and 5). -/
def Obligations.MovFromDrawnRegisters : Prop :=
  ∀ (d : Fin 6) (s : State),
    exec (.mov (storeId d) 6#4) s =
      .next { s with regs := s.regs.set d (defaultConfig.draw s.draws), written := s.written.set d true, pc := s.pc + 1#8,
                     draws := s.draws + 1 } ∧
    exec (.mov (storeId d) 8#4) s =
      .next { s with regs := s.regs.set d (defaultConfig.input s.draws), written := s.written.set d true, pc := s.pc + 1#8,
                     draws := s.draws + 1 }

/-- R33, R172: MOV into the write-only register writes nothing, but the source is still read. Going on where it is unwritten is
the model's choice, log entry 2; the counted draws are log entries 4 and 5. -/
def Obligations.MovToWriteOnlyRegister : Prop :=
  ∀ (src : Reg4) (s : State), src.toNat < 14 →
    exec (.mov 6#4 src) s =
      .next { s with pc := s.pc + 1#8, faulted := s.faulted.or (firstUnwritten s (readSetOf defaultConfig src)),
                     draws := if src = 6#4 ∨ src = 8#4 then s.draws + 1 else s.draws }

/-- R32: every read of id 13, as a MOV source or as a jump target, answers 0x00, at any parameters. -/
def Obligations.HardWiredZeroReadsZero : Prop :=
  ∀ (cfg : Config) (earlier : List (Fin 6)) (s : State),
    (∃ s1, readReg cfg earlier 13#4 s = .ok (0#8, s1)) ∧ (∃ s1, driveReg cfg earlier 13#4 s = .ok (0#8, s1))

/-- R175, R177: LDI writes the zero-extended immediate; into the write-only register it writes nothing. -/
def Obligations.LdiWritesImmediate : Prop :=
  ∀ (k : Imm4) (s : State),
    (∀ d : Fin 6, exec (.ldi (storeId d) k) s =
      .next { s with regs := s.regs.set d (BitVec.ofNat 8 k.toNat), written := s.written.set d true, pc := s.pc + 1#8 }) ∧
    exec (.ldi 6#4 k) s = .next { s with pc := s.pc + 1#8 }

/-- R192, R195, R198: a taken JEZ or JNZ through a storage register loads its whole value into `pc`. Going on where the condition
or the target is unwritten is the model's choice, log entry 2. -/
def Obligations.TakenJumpThroughStorage : Prop :=
  ∀ (k : Fin 6) (s : State),
    (s.regs[1] = 0#8 → exec (.jez (storeId k)) s =
      .next { s with pc := s.regs[k], faulted := s.faulted.or (firstUnwritten s [1, k]) }) ∧
    (s.regs[1] ≠ 0#8 → exec (.jnz (storeId k)) s =
      .next { s with pc := s.regs[k], faulted := s.faulted.or (firstUnwritten s [1, k]) })

/-- R192, R195, R198: a taken JEZ or JNZ through a derived register: the program counter, the jump-enable bit, the shift value,
the sum and zero (log entries 10 to 14). Going on where a register read is unwritten is log entry 2; that id 4 is recorded before
id 5 is log entry 36. -/
def Obligations.TakenJumpThroughDerived : Prop :=
  ∀ (s : State) (t : Reg4) (v : Byte) (reads : List (Fin 6)),
    (t, v, reads) ∈
      [(7#4, s.pc, ([] : List (Fin 6))), (9#4, if s.regs[1] = 0#8 then 0#8 else 1#8, [1]),
       (10#4, defaultConfig.shiftFn s, defaultConfig.shiftReads), (11#4, s.regs[4] + s.regs[5], [4, 5]), (13#4, 0#8, [])] →
    (s.regs[1] = 0#8 → exec (.jez t) s = .next { s with pc := v, faulted := s.faulted.or (firstUnwritten s (1 :: reads)) }) ∧
    (s.regs[1] ≠ 0#8 → exec (.jnz t) s = .next { s with pc := v, faulted := s.faulted.or (firstUnwritten s (1 :: reads)) })

/-- R194: a taken jump through the difference, the write-only register or the input latch goes to a fresh free value (log entry
22). Going on where the condition register is unwritten is log entry 2. -/
def Obligations.TakenJumpToFreeTarget : Prop :=
  ∀ (s : State) (t : Reg4) (v : Byte),
    (t, v) ∈ [(12#4, defaultConfig.draw s.draws), (6#4, defaultConfig.draw s.draws), (8#4, defaultConfig.input s.draws)] →
    (s.regs[1] = 0#8 → exec (.jez t) s =
      .next { s with pc := v, faulted := s.faulted.or (firstUnwritten s [1]), draws := s.draws + 1 }) ∧
    (s.regs[1] ≠ 0#8 → exec (.jnz t) s =
      .next { s with pc := v, faulted := s.faulted.or (firstUnwritten s [1]), draws := s.draws + 1 })

/-- R203, R195, R198: a jump not taken only advances `pc`; its target is not read (log entry 23). Going on where the condition
register is unwritten is the model's choice, log entry 2. -/
def Obligations.UntakenJumpAdvances : Prop :=
  ∀ (t : Reg4) (s : State), t.toNat < 14 →
    (s.regs[1] ≠ 0#8 → exec (.jez t) s =
      .next { s with pc := s.pc + 1#8, faulted := s.faulted.or (firstUnwritten s [1]) }) ∧
    (s.regs[1] = 0#8 → exec (.jnz t) s =
      .next { s with pc := s.pc + 1#8, faulted := s.faulted.or (firstUnwritten s [1]) })

/-- R200: JNI goes to the zero-extended immediate when the condition register is not zero. Going on where the condition register
is unwritten is the model's choice, log entry 2. -/
def Obligations.JniJumpsToImmediate : Prop :=
  ∀ (k : Imm4) (s : State),
    exec (.jni k) s =
      .next { s with pc := if s.regs[1] = 0#8 then s.pc + 1#8 else BitVec.ofNat 8 k.toNat,
                     faulted := s.faulted.or (firstUnwritten s [1]) }

/-- R210: HLT sets `halted` and leaves `pc` at its own address. -/
def Obligations.HltHalts : Prop :=
  ∀ s : State, exec .hlt s = .next { s with halted := true }

/-- R215, R260: RST puts the machine in the reset state: `pc` 0, not halted, ids 0 to 5 unwritten (their values: log entry 1);
program memory, the recorded fault and the ROM pages stay. -/
def Obligations.RstResets : Prop :=
  ∀ s : State,
    exec .rst s =
      .next { s with regs := Vector.replicate 6 0#8, written := Vector.replicate 6 false, pc := 0#8, halted := false }

/-- R231: every instruction a byte can decode to completes, in every state. -/
def Obligations.DecodedInstructionsComplete : Prop :=
  ∀ (i : Instr) (s : State), wellFormed i = true → ∃ t, exec i s = .next t

/-- R22, R72, R234: what no byte decodes to is refused by name, an invalid instruction before a read-only destination (log entry
19); R143, R230: `translate`, under revision 1, has an error for the invalid instructions only. -/
def Obligations.IllFormedInstructionsRefused : Prop :=
  ∀ (cfg : Config) (s : State), cfg.memcellMapped = false →
    (∀ i : Instr, isValid i = false → execIn cfg i s = .refused .invalidInstruction) ∧
    (∀ d src : Reg4, 7 ≤ d.toNat → d.toNat < 14 → src.toNat < 14 →
      execIn cfg (.mov d src) s = .refused (.readOnlyDestination d)) ∧
    (∀ (d : Reg4) (k : Imm4), 7 ≤ d.toNat → d.toNat < 14 → execIn cfg (.ldi d k) s = .refused (.readOnlyDestination d)) ∧
    (∀ i : Instr, cfg.revision = .one →
      (isValid i = true → ∃ w, translateInstr cfg i = .ok w) ∧
      (isValid i = false → translateInstr cfg i = .error .refusedInvalid))

/-- R54: under `MEMCELL_MAPPED = true` every access to id 3 is refused: as a destination, and by reading a register that consults
it, which is id 3 itself and ids 9 and 10 where their functions read id 3 (log entry 15). That the refusal stands whatever
unwritten register the instruction also reads is log entry 37. -/
def Obligations.MappedMemoryCellRefused : Prop :=
  ∀ (cfg : Config) (s : State), cfg.memcellMapped = true →
    (∀ d src : Reg4, d.toNat < 7 → 3 ∈ readSetOf cfg src → execIn cfg (.mov d src) s = .refused .memcellUndefined) ∧
    (∀ src : Reg4, src.toNat < 14 → execIn cfg (.mov 3#4 src) s = .refused .memcellUndefined) ∧
    (∀ k : Imm4, execIn cfg (.ldi 3#4 k) s = .refused .memcellUndefined) ∧
    (∀ t : Reg4, 3 ∈ targetSetOf cfg t →
      (cfg.cond s.regs[1] = false → execIn cfg (.jez t) s = .refused .memcellUndefined) ∧
      (cfg.cond s.regs[1] = true → execIn cfg (.jnz t) s = .refused .memcellUndefined)) ∧
    3 ∈ readSetOf cfg 3#4 ∧ 3 ∈ targetSetOf cfg 3#4 ∧
    (3 ∈ jumpEnableReads cfg → 3 ∈ readSetOf cfg 9#4 ∧ 3 ∈ targetSetOf cfg 9#4) ∧
    (3 ∈ cfg.shiftReads → 3 ∈ readSetOf cfg 10#4 ∧ 3 ∈ targetSetOf cfg 10#4)

/-! ## Frames -/

/-- The frame of MOV and LDI: only the destination register, `pc`, the recorded fault and the free-value count may change. -/
def Obligations.MovAndLdiFrame : Prop :=
  ∀ (i : Instr) (d : Reg4) (s t : State), ((∃ src, i = .mov d src) ∨ ∃ k, i = .ldi d k) → exec i s = .next t →
    (∀ k : Fin 6, storeId k ≠ d → t.regs[k] = s.regs[k] ∧ t.written[k] = s.written[k]) ∧
    t.halted = s.halted ∧ t.rom = s.rom ∧ t.extReset = s.extReset ∧
    (s.faulted ≠ none → t.faulted = s.faulted) ∧ (∀ a : Nat, t.imem.read a = s.imem.read a)

/-- R193, the frame of the jumps: only `pc`, the recorded fault and the free-value count may change. -/
def Obligations.JumpFrame : Prop :=
  ∀ (i : Instr) (s t : State), ((∃ r, i = .jez r) ∨ (∃ r, i = .jnz r) ∨ ∃ k, i = .jni k) → exec i s = .next t →
    t.regs = s.regs ∧ t.written = s.written ∧ t.halted = s.halted ∧ t.rom = s.rom ∧ t.extReset = s.extReset ∧
    (s.faulted ≠ none → t.faulted = s.faulted) ∧ (∀ a : Nat, t.imem.read a = s.imem.read a)

/-- The frame of HLT and RST: HLT changes `halted` alone; RST leaves memory, the recorded fault, the ROM pages, the external
reset input and the free-value count. -/
def Obligations.HltAndRstFrame : Prop :=
  ∀ s t : State,
    (exec .hlt s = .next t → t.regs = s.regs ∧ t.written = s.written ∧ t.pc = s.pc) ∧
    (exec .hlt s = .next t ∨ exec .rst s = .next t →
      t.faulted = s.faulted ∧ t.rom = s.rom ∧ t.extReset = s.extReset ∧ t.draws = s.draws ∧
      ∀ a : Nat, t.imem.read a = s.imem.read a)

/-! ## The whole machine -/

/-- R53: program memory is read-only during a run: no step writes it at any parameters, and the host's load is refused while
the machine runs. The ROM pages likewise (R65). -/
def Obligations.ProgramMemoryIsReadOnly : Prop :=
  (∀ (cfg : Config) (s t : State), stepIn cfg s = .next t → t.imem = s.imem ∧ t.rom = s.rom) ∧
  (∀ (s : State) (file : List Byte) (p : Fin 3), s.extReset = false → s.halted = false →
    s.loadProgram file = .error .machineRunning ∧ s.programRom p file = .error .machineRunning)

/-- R26: where `pc` goes after each instruction. -/
def Obligations.ProgramCounterSuccession : Prop :=
  ∀ (i : Instr) (s t : State), exec i s = .next t →
    match i with
    | .mov _ _ => t.pc = s.pc + 1#8
    | .ldi _ _ => t.pc = s.pc + 1#8
    | .jez r => if s.regs[1] = 0#8 then ∃ u, driveReg defaultConfig [1] r s = .ok (t.pc, u) else t.pc = s.pc + 1#8
    | .jnz r => if s.regs[1] = 0#8 then t.pc = s.pc + 1#8 else ∃ u, driveReg defaultConfig [1] r s = .ok (t.pc, u)
    | .jni k => t.pc = if s.regs[1] = 0#8 then s.pc + 1#8 else BitVec.ofNat 8 k.toNat
    | .hlt => t.pc = s.pc
    | .rst => t.pc = 0#8

/-- R210, R242, R243: a step makes the machine halted only by running a HLT, and ends halt only by an external reset; at any
parameters. -/
def Obligations.HaltOnlyByHltEndedOnlyByReset : Prop :=
  ∀ (cfg : Config) (s t : State), stepIn cfg s = .next t →
    (t.halted = true → s.halted = true ∨ decode cfg.hltRstSwap s.fetch = .hlt) ∧
    (s.halted = true → t.halted = false → s.extReset = true)

/-- R234, R260: a recorded fault is never cleared by a later step, even by RST or an external reset. -/
def Obligations.RecordedFaultIsSticky : Prop :=
  ∀ (cfg : Config) (s t : State) (f : Fault), stepIn cfg s = .next t → s.faulted = some f → t.faulted = some f

/-- R215, R260: a written register becomes unwritten only by RST or an external reset. -/
def Obligations.OnlyResetsForgetRegisters : Prop :=
  ∀ (cfg : Config) (s t : State) (k : Fin 6), stepIn cfg s = .next t → s.written[k] = true → t.written[k] = false →
    s.extReset = true ∨ decode cfg.hltRstSwap s.fetch = .rst

/-- The invariant of the state (log entries 1 and 3): memory in canonical form, unwritten registers at their reset value. Every
step keeps it, at any parameters. -/
def Obligations.StepKeepsInvariant : Prop :=
  ∀ (cfg : Config) (s t : State), s.Inv → stepIn cfg s = .next t → t.Inv

/-- The state after reset meets the invariant. -/
def Obligations.ResetMeetsInvariant : Prop := State.reset.Inv

/-- R260, R261: what reset leaves: entry point 0, not halted, ids 0 to 5 unwritten. -/
def Obligations.ResetState : Prop :=
  State.reset.pc = 0#8 ∧ State.reset.halted = false ∧ (∀ k : Fin 6, State.reset.st k = none) ∧ State.reset.Running defaultConfig

/-! ## The strict semantics (R36, R234) -/

/-- R36, R234: what reading registers in an order reports is the first one that is unwritten. -/
def Obligations.ReadsReportFirstUnwritten : Prop :=
  ∀ (s : State) (ks : List (Fin 6)) (r : Fin 6),
    (firstUnwritten s ks = some (.unwrittenRegister r) ↔
      ∃ pre post, ks = pre ++ r :: post ∧ s.st r = none ∧ ∀ k ∈ pre, s.st k ≠ none) ∧
    (firstUnwritten s ks = none ↔ ∀ k ∈ ks, s.st k ≠ none)

/-- R234, R36, R203: from a running state with no fault recorded, the strict step faults exactly when the fetched instruction
reads an unwritten register, with the first one in the rule's order; otherwise it is the step. -/
def Obligations.StrictStepFaultsOnUnwrittenReads : Prop :=
  ∀ s : State, s.Running defaultConfig → s.faulted = none →
    match firstUnwritten s (instrReads defaultConfig s (decode false s.fetch)) with
    | some f => strictStep s = .fault f
    | none => ∃ t, strictStep s = .next t ∧ step s = .next t ∧ t.faulted = none

/-- The reset values of log entry 1 cannot be seen by a run without a fault: two states that differ only in the values of
unwritten registers step, strictly, to two states that differ only so; at any parameters whose derived registers depend on no
register but those they are said to read. -/
def Obligations.ResetValuesCannotBeSeen : Prop :=
  ∀ (cfg : Config) (s s' t : State), DerivedReadsOnly cfg → SameButUnwritten s s' → strict (stepIn cfg s) = .next t →
    ∃ t', strict (stepIn cfg s') = .next t' ∧ SameButUnwritten t t'

/-! ## The control word -/

/-- R145, R143, R270: `translate` gives the instruction of every byte a control word under revision 1, and that word, run on the
datapath as R145 reads its bits, does what the instruction's own rule says; at any values of the other parameters. -/
def Obligations.ControlWordDrivesTheMachine : Prop :=
  ∀ (cfg : Config) (b : Byte), cfg.revision = .one →
    ∃ w, translateInstr cfg (decode cfg.hltRstSwap b) = .ok w ∧
      ∀ s : State, runControlWord cfg w b s = execIn cfg (decode cfg.hltRstSwap b) s

/-- R171, R176: the signals MOV and LDI assert. -/
def Obligations.ControlWordsOfMovAndLdi : Prop :=
  ∀ (cfg : Config) (d : Fin 7) (r : Fin 14) (k : Imm4), cfg.revision = .one →
    (∃ w, translateInstr cfg (.mov (BitVec.ofNat 4 d.val) (BitVec.ofNat 4 r.val)) = .ok w ∧
      ∀ sig, asserted w sig = true ↔
        if r = 12 then sig = .oe 11 ∨ sig = .aluSub ∨ sig = .ie ⟨d.val, by omega⟩
        else sig = .oe r ∨ sig = .ie ⟨d.val, by omega⟩) ∧
    (∃ w, translateInstr cfg (.ldi (BitVec.ofNat 4 d.val) k) = .ok w ∧
      ∀ sig, asserted w sig = true ↔ sig = .imm ∨ sig = .ie ⟨d.val, by omega⟩)

/-- R191, R196, R201: the signals the jumps assert. -/
def Obligations.ControlWordsOfJumps : Prop :=
  ∀ (cfg : Config) (t : Fin 14) (k : Imm4), cfg.revision = .one →
    (∃ w, translateInstr cfg (.jez (BitVec.ofNat 4 t.val)) = .ok w ∧
      ∀ sig, asserted w sig = true ↔ sig = .oe t ∨ sig = .ie 7 ∨ sig = .jneg) ∧
    (∃ w, translateInstr cfg (.jnz (BitVec.ofNat 4 t.val)) = .ok w ∧
      ∀ sig, asserted w sig = true ↔ sig = .oe t ∨ sig = .ie 7) ∧
    (∃ w, translateInstr cfg (.jni k) = .ok w ∧ ∀ sig, asserted w sig = true ↔ sig = .imm ∨ sig = .ie 7)

/-- R211, R216: HLT and RST assert one dedicated bit each. -/
def Obligations.ControlWordsOfHltAndRst : Prop :=
  ∀ cfg : Config, cfg.revision = .one →
    (∃ w, translateInstr cfg .hlt = .ok w ∧ ∀ sig, asserted w sig = true ↔ sig = .hlt) ∧
    (∃ w, translateInstr cfg .rst = .ok w ∧ ∀ sig, asserted w sig = true ↔ sig = .rst)

/-- R144: for every byte at most one bus driver and at most one input enable; HLT and RST assert neither. -/
def Obligations.BusDiscipline : Prop :=
  ∀ (cfg : Config) (b : Byte) (w : SignalSet), translateInstr cfg (decode cfg.hltRstSwap b) = .ok w →
    (∀ r r' : Fin 14, asserted w (.oe r) = true → asserted w (.oe r') = true → r = r') ∧
    (∀ r : Fin 14, asserted w (.oe r) = true → asserted w .imm = false) ∧
    (∀ r r' : Fin 8, asserted w (.ie r) = true → asserted w (.ie r') = true → r = r') ∧
    (decode cfg.hltRstSwap b = .hlt ∨ decode cfg.hltRstSwap b = .rst →
      asserted w .imm = false ∧ (∀ r, asserted w (.oe r) = false) ∧ ∀ r, asserted w (.ie r) = false)

/-- R147, R148: the inversion flips exactly the active-low signals, and revision 1's are all output enables, `RST` and `IMM`. -/
def Obligations.ActiveLowInversion : Prop :=
  (∀ (t : RevisionTables) (w : SignalSet) (sig : Signal),
    asserted (invertActiveLow t w) sig = (asserted w sig ^^ asserted t.activeLow sig)) ∧
  (∀ sig : Signal, asserted revision1ActiveLow sig = true ↔ (∃ r, sig = .oe r) ∨ sig = .rst ∨ sig = .imm)

/-- R161: the level of every wired pin under revision 1, and 0 on a pin no signal is mapped to. -/
def Obligations.WiredPinLevels : Prop :=
  ∀ (cfg : Config) (b : Byte), cfg.revision = .one → PinsInjective cfg.pinOf →
    ∃ w pins, translateInstr cfg (decode cfg.hltRstSwap b) = .ok w ∧ pinsOfByte cfg b = .ok pins ∧
      (∀ (sig : Signal) (n : Fin 24), cfg.pinOf sig = some n →
        pins[n] = (asserted w sig ^^ decide ((∃ r, sig = .oe r) ∨ sig = .rst ∨ sig = .imm))) ∧
      (∀ n : Fin 24, (∀ sig, cfg.pinOf sig ≠ some n) → pins[n] = false)

/-- R152: with a pin table in which no two signals share a pin, at least three signals have no pin. -/
def Obligations.AtLeastThreeSignalsUnwired : Prop :=
  ∀ pinOf : Signal → Option (Fin 24), PinsInjective pinOf →
    ∃ a b c : Signal, a ≠ b ∧ a ≠ c ∧ b ≠ c ∧ pinOf a = none ∧ pinOf b = none ∧ pinOf c = none

/-- R151: the default pin table never gives two signals one pin, and it leaves a table that does not as it is (log entry
16). -/
def Obligations.DefaultPinTableIsInjective : Prop :=
  PinsInjective defaultConfig.pinOf ∧
    ∀ raw : Signal → Option (Fin 24), PinsInjective (firstClaim raw) ∧ (PinsInjective raw → firstClaim raw = raw)

/-- R153: bit `j` of page `p` is pin `8p + j`. -/
def Obligations.RomPageBitsArePins : Prop :=
  ∀ (cfg : Config) (b y : Byte) (p : Fin 3),
    romPage cfg b p = .ok y ↔
      ∃ pins, pinsOfByte cfg b = .ok pins ∧ ∀ j : Fin 8, y.getLsbD j.val = pins[8 * p.val + j.val]'(by omega)

/-- R158, R159: `generate_rom_page` writes the 256 bytes of a page in code order; a selector of 3 or more is refused and
nothing is written, whatever the revision (log entries 28 and 35). -/
def Obligations.GeneratedRomPage : Prop :=
  ∀ (cfg : Config) (selector : Nat) (out : OutStream),
    (3 ≤ selector → generateRomPage cfg selector out = (.error .pageOutOfRange, out)) ∧
    (∀ h : selector < 3, cfg.revision = .one → out.room = none →
      ∃ bs : List Byte, bs.length = 256 ∧
        generateRomPage cfg selector out = (.ok (), { out with sent := out.sent ++ bs }) ∧
        ∀ b : Byte, ∃ y, bs[b.toNat]? = some y ∧ romPage cfg b ⟨selector, h⟩ = .ok y)

/-- R149, R234: revision 2 without its tables is refused by every codec function that needs them; tables whose active-low set
has as many members as revision 1's or more are no revision 2 tables (log entry 34). That an invalid instruction is refused as
such there too is the model's choice, log entry 35. -/
def Obligations.RevisionTwoNeedsTables : Prop :=
  ∀ (cfg : Config) (b : Byte), cfg.revision = .two → (∀ t, cfg.rev2 = some t → 16 ≤ activeLowCount t) →
    (∀ i, translateInstr cfg i = .error (if isValid i then .refusedRevision else .refusedInvalid)) ∧
    pinsOfByte cfg b = .error .refusedRevision ∧
    (∀ p, romPage cfg b p = .error .refusedRevision) ∧
    ∀ (selector : Nat) (out : OutStream), selector < 3 →
      generateRomPage cfg selector out = (.error (.codec .refusedRevision), out)

/-! ## Assembly text -/

/-- R126, R128, R125, R88: disassembling any bytes succeeds, and compiling the text gives the bytes back, one line each; for
every lawful choice of register letters. -/
def Obligations.CompileUndoesDisassemble : Prop :=
  ∀ (cfg : Config) (bs : List Byte), LettersLawful cfg →
    (disassemble cfg ⟨bs, .eof⟩ OutStream.fresh).1 = .ok () ∧
    compile cfg ⟨(disassemble cfg ⟨bs, .eof⟩ OutStream.fresh).2.sent, .eof⟩ OutStream.fresh =
      (.ok bs.length, { sent := bs, room := none })

/-- R126: the parser inverts `format` on every valid instruction, those with a read-only destination included. -/
def Obligations.ParseUndoesFormat : Prop :=
  ∀ (cfg : Config) (i : Instr), LettersLawful cfg → isValid i = true →
    ∃ tokens, scanLine LineState.fresh (formatInstr cfg i) = .ok tokens ∧ parseWords cfg (lineWords tokens) = .ok i

/-- R110, R111, R112, R117: a line of white space, with or without a comment, gives no byte and no error, but for a comment that
holds a byte with its high bit set, which is an invalid character. -/
def Obligations.BlankLinesGiveNothing : Prop :=
  ∀ (cfg : Config) (blank comment : List Byte), (∀ b ∈ blank, isWhitespace b = true) → newlineByte ∉ comment →
    assembleLine cfg blank = .ok none ∧
    assembleLine cfg (blank ++ commentByte :: comment) =
      if comment.any (fun b => b.getLsbD 7) then .error .invalidCharacter else .ok none

/-- R125: a compile only appends to its output, at most one byte a line; at an error in line `n` it has written exactly what
compiling lines 1 to `n - 1` alone writes: "no bytes are written for or after that line". -/
def Obligations.CompileWritesAtMostOneByteALine : Prop :=
  ∀ (cfg : Config) (inp : InStream) (out : OutStream),
    (∃ bs, (compile cfg inp out).2.sent = out.sent ++ bs ∧
      match (compile cfg inp out).1 with
      | .ok n => bs.length ≤ n
      | .error (n, _) => bs.length < n) ∧
    ∀ (n : Nat) (e : AsmError), (compile cfg inp out).1 = .error (n, e) →
      ∃ earlier rest, inp.bytes = earlier ++ rest ∧ earlier.count newlineByte + 1 = n ∧
        (earlier = [] ∨ earlier.getLast? = some newlineByte) ∧
        compile cfg ⟨earlier, .eof⟩ out = (.ok (n - 1), (compile cfg inp out).2)

/-! ## The host -/

/-- R50, R275: after a load, byte `k` of the file is at address `k`, every other address reads as before, memory is in
canonical form, and nothing else has changed. -/
def Obligations.LoadedProgramIsInPlace : Prop :=
  ∀ (s t : State) (file : List Byte), Memory.wf s.imem = true → s.loadProgram file = .ok t →
    Memory.wf t.imem = true ∧ t = { s with imem := t.imem } ∧
    ∀ a : Nat, t.imem.read a = file[a]?.getD (s.imem.read a)

/-- Program memory in canonical form is determined by what its addresses read as: equal memories are equal data. -/
def Obligations.CanonicalMemoryIsUnique : Prop :=
  ∀ m m' : Memory, Memory.wf m = true → Memory.wf m' = true → (∀ a : Nat, m.read a = m'.read a) → m = m'
end

