-- ==== Sys2Proof/Laws/State.lean ====
section
/-! SUPPORT. One lemma per field per update of the state, true by definition, so that no proof unfolds a record update. -/

namespace Sys2Proof.Machine

variable (s : State)

@[simp] theorem State.advance_regs : s.advance.regs = s.regs := rfl
@[simp] theorem State.advance_written : s.advance.written = s.written := rfl
@[simp] theorem State.advance_pc : s.advance.pc = s.pc + 1#8 := rfl
@[simp] theorem State.advance_halted : s.advance.halted = s.halted := rfl
@[simp] theorem State.advance_imem : s.advance.imem = s.imem := rfl
@[simp] theorem State.advance_faulted : s.advance.faulted = s.faulted := rfl
@[simp] theorem State.advance_rom : s.advance.rom = s.rom := rfl
@[simp] theorem State.advance_extReset : s.advance.extReset = s.extReset := rfl
@[simp] theorem State.advance_draws : s.advance.draws = s.draws := rfl

@[simp] theorem State.jumpTo_regs (target : Byte) : (s.jumpTo target).regs = s.regs := rfl
@[simp] theorem State.jumpTo_written (target : Byte) : (s.jumpTo target).written = s.written := rfl
@[simp] theorem State.jumpTo_pc (target : Byte) : (s.jumpTo target).pc = target := rfl
@[simp] theorem State.jumpTo_halted (target : Byte) : (s.jumpTo target).halted = s.halted := rfl
@[simp] theorem State.jumpTo_imem (target : Byte) : (s.jumpTo target).imem = s.imem := rfl
@[simp] theorem State.jumpTo_faulted (target : Byte) : (s.jumpTo target).faulted = s.faulted := rfl
@[simp] theorem State.jumpTo_rom (target : Byte) : (s.jumpTo target).rom = s.rom := rfl
@[simp] theorem State.jumpTo_extReset (target : Byte) : (s.jumpTo target).extReset = s.extReset := rfl
@[simp] theorem State.jumpTo_draws (target : Byte) : (s.jumpTo target).draws = s.draws := rfl

@[simp] theorem State.setStore_regs (k : Fin 6) (v : Byte) : (s.setStore k v).regs = s.regs.set k v := rfl
@[simp] theorem State.setStore_written (k : Fin 6) (v : Byte) : (s.setStore k v).written = s.written.set k true := rfl
@[simp] theorem State.setStore_pc (k : Fin 6) (v : Byte) : (s.setStore k v).pc = s.pc := rfl
@[simp] theorem State.setStore_halted (k : Fin 6) (v : Byte) : (s.setStore k v).halted = s.halted := rfl
@[simp] theorem State.setStore_imem (k : Fin 6) (v : Byte) : (s.setStore k v).imem = s.imem := rfl
@[simp] theorem State.setStore_faulted (k : Fin 6) (v : Byte) : (s.setStore k v).faulted = s.faulted := rfl
@[simp] theorem State.setStore_rom (k : Fin 6) (v : Byte) : (s.setStore k v).rom = s.rom := rfl
@[simp] theorem State.setStore_extReset (k : Fin 6) (v : Byte) : (s.setStore k v).extReset = s.extReset := rfl
@[simp] theorem State.setStore_draws (k : Fin 6) (v : Byte) : (s.setStore k v).draws = s.draws := rfl

@[simp] theorem State.noteReads_regs (ks : List (Fin 6)) : (s.noteReads ks).regs = s.regs := rfl
@[simp] theorem State.noteReads_written (ks : List (Fin 6)) : (s.noteReads ks).written = s.written := rfl
@[simp] theorem State.noteReads_pc (ks : List (Fin 6)) : (s.noteReads ks).pc = s.pc := rfl
@[simp] theorem State.noteReads_halted (ks : List (Fin 6)) : (s.noteReads ks).halted = s.halted := rfl
@[simp] theorem State.noteReads_imem (ks : List (Fin 6)) : (s.noteReads ks).imem = s.imem := rfl
@[simp] theorem State.noteReads_faulted (ks : List (Fin 6)) : (s.noteReads ks).faulted = s.faulted.or (firstUnwritten s ks) := rfl
@[simp] theorem State.noteReads_rom (ks : List (Fin 6)) : (s.noteReads ks).rom = s.rom := rfl
@[simp] theorem State.noteReads_extReset (ks : List (Fin 6)) : (s.noteReads ks).extReset = s.extReset := rfl
@[simp] theorem State.noteReads_draws (ks : List (Fin 6)) : (s.noteReads ks).draws = s.draws := rfl

@[simp] theorem State.countDraw_regs : s.countDraw.regs = s.regs := rfl
@[simp] theorem State.countDraw_written : s.countDraw.written = s.written := rfl
@[simp] theorem State.countDraw_pc : s.countDraw.pc = s.pc := rfl
@[simp] theorem State.countDraw_halted : s.countDraw.halted = s.halted := rfl
@[simp] theorem State.countDraw_imem : s.countDraw.imem = s.imem := rfl
@[simp] theorem State.countDraw_faulted : s.countDraw.faulted = s.faulted := rfl
@[simp] theorem State.countDraw_rom : s.countDraw.rom = s.rom := rfl
@[simp] theorem State.countDraw_extReset : s.countDraw.extReset = s.extReset := rfl
@[simp] theorem State.countDraw_draws : s.countDraw.draws = s.draws + 1 := rfl

@[simp] theorem State.takeReset_regs : s.takeReset.regs = resetRegs := rfl
@[simp] theorem State.takeReset_written : s.takeReset.written = resetWritten := rfl
@[simp] theorem State.takeReset_pc : s.takeReset.pc = 0x00#8 := rfl
@[simp] theorem State.takeReset_halted : s.takeReset.halted = false := rfl
@[simp] theorem State.takeReset_imem : s.takeReset.imem = s.imem := rfl
@[simp] theorem State.takeReset_faulted : s.takeReset.faulted = s.faulted := rfl
@[simp] theorem State.takeReset_rom : s.takeReset.rom = s.rom := rfl
@[simp] theorem State.takeReset_extReset : s.takeReset.extReset = s.extReset := rfl
@[simp] theorem State.takeReset_draws : s.takeReset.draws = s.draws := rfl

@[simp] theorem State.takeExternalReset_regs : s.takeExternalReset.regs = resetRegs := rfl
@[simp] theorem State.takeExternalReset_written : s.takeExternalReset.written = resetWritten := rfl
@[simp] theorem State.takeExternalReset_pc : s.takeExternalReset.pc = 0x00#8 := rfl
@[simp] theorem State.takeExternalReset_halted : s.takeExternalReset.halted = false := rfl
@[simp] theorem State.takeExternalReset_imem : s.takeExternalReset.imem = s.imem := rfl
@[simp] theorem State.takeExternalReset_faulted : s.takeExternalReset.faulted = s.faulted := rfl
@[simp] theorem State.takeExternalReset_rom : s.takeExternalReset.rom = s.rom := rfl
@[simp] theorem State.takeExternalReset_extReset : s.takeExternalReset.extReset = false := rfl
@[simp] theorem State.takeExternalReset_draws : s.takeExternalReset.draws = s.draws := rfl

@[simp] theorem State.halt_regs : s.halt.regs = s.regs := rfl
@[simp] theorem State.halt_written : s.halt.written = s.written := rfl
@[simp] theorem State.halt_pc : s.halt.pc = s.pc := rfl
@[simp] theorem State.halt_halted : s.halt.halted = true := rfl
@[simp] theorem State.halt_imem : s.halt.imem = s.imem := rfl
@[simp] theorem State.halt_faulted : s.halt.faulted = s.faulted := rfl
@[simp] theorem State.halt_rom : s.halt.rom = s.rom := rfl
@[simp] theorem State.halt_extReset : s.halt.extReset = s.extReset := rfl
@[simp] theorem State.halt_draws : s.halt.draws = s.draws := rfl

@[simp] theorem State.placeInstruction_regs (b : Byte) : (s.placeInstruction b).regs = s.regs := rfl
@[simp] theorem State.placeInstruction_written (b : Byte) : (s.placeInstruction b).written = s.written := rfl
@[simp] theorem State.placeInstruction_pc (b : Byte) : (s.placeInstruction b).pc = s.pc := rfl
@[simp] theorem State.placeInstruction_halted (b : Byte) : (s.placeInstruction b).halted = false := rfl
@[simp] theorem State.placeInstruction_imem (b : Byte) : (s.placeInstruction b).imem = s.imem.write s.pc.toNat b := rfl
@[simp] theorem State.placeInstruction_faulted (b : Byte) : (s.placeInstruction b).faulted = s.faulted := rfl
@[simp] theorem State.placeInstruction_rom (b : Byte) : (s.placeInstruction b).rom = resetRom := rfl
@[simp] theorem State.placeInstruction_extReset (b : Byte) : (s.placeInstruction b).extReset = false := rfl
@[simp] theorem State.placeInstruction_draws (b : Byte) : (s.placeInstruction b).draws = s.draws := rfl

@[simp] theorem State.reset_regs : State.reset.regs = resetRegs := rfl
@[simp] theorem State.reset_written : State.reset.written = resetWritten := rfl
@[simp] theorem State.reset_pc : State.reset.pc = 0x00#8 := rfl
@[simp] theorem State.reset_halted : State.reset.halted = false := rfl
@[simp] theorem State.reset_imem : State.reset.imem = [] := rfl
@[simp] theorem State.reset_faulted : State.reset.faulted = none := rfl
@[simp] theorem State.reset_rom : State.reset.rom = resetRom := rfl
@[simp] theorem State.reset_extReset : State.reset.extReset = false := rfl

/-- Reading nothing reports nothing. -/
@[simp] theorem firstUnwritten_nil : firstUnwritten s [] = none := rfl

/-- Reading nothing leaves the state as it is. -/
@[simp] theorem State.noteReads_nil : s.noteReads [] = s := by
  simp [State.noteReads]

end Sys2Proof.Machine
end

