-- ==== Sys2Proof/Laws/Operands.lean ====
section
/-! SUPPORT. The operand forms: everything a read, a bus drive and a write can do, said once. -/

namespace Sys2Proof.Machine

@[simp] theorem regName_storeId (k : Fin 6) : regName (storeId k) = some (.store k) := by
  revert k; decide

@[simp] theorem regName_sink : regName 6#4 = some .sink := rfl
@[simp] theorem regName_pc : regName 7#4 = some .pc := rfl
@[simp] theorem regName_input : regName 8#4 = some .input := rfl
@[simp] theorem regName_jumpEnable : regName 9#4 = some .jumpEnable := rfl
@[simp] theorem regName_shift : regName 10#4 = some .shift := rfl
@[simp] theorem regName_sum : regName 11#4 = some .sum := rfl
@[simp] theorem regName_difference : regName 12#4 = some .difference := rfl
@[simp] theorem regName_zero : regName 13#4 = some .zero := rfl

/-- An id names a register exactly when it is a register id. -/
theorem isSome_regName (r : Reg4) : (regName r).isSome = isRegister r := by
  revert r; decide

/-- A write-capable id names a storage register or the write-only register. -/
theorem regName_of_writeCapable {r : Reg4} (h : isWriteCapable r = true) :
    (∃ k, regName r = some (.store k)) ∨ regName r = some .sink := by
  revert r; decide

/-- A register id that is not write-capable names a read-only register. -/
theorem regName_readOnly {r : Reg4} (hv : isRegister r = true) (h : isWriteCapable r = false) :
    regName r = some .pc ∨ regName r = some .input ∨ regName r = some .jumpEnable ∨ regName r = some .shift ∨
      regName r = some .sum ∨ regName r = some .difference ∨ regName r = some .zero := by
  revert r; decide

/-- What a read leaves: reports recorded and a free value counted, nothing else. -/
def State.afterRead (s : State) (ks : List (Fin 6)) (drew : Bool) : State :=
  { s with faulted := s.faulted.or (firstUnwritten s ks), draws := if drew then s.draws + 1 else s.draws }

@[simp] theorem State.afterRead_regs (s : State) (ks : List (Fin 6)) (d : Bool) : (s.afterRead ks d).regs = s.regs := rfl
@[simp] theorem State.afterRead_written (s : State) (ks : List (Fin 6)) (d : Bool) : (s.afterRead ks d).written = s.written := rfl
@[simp] theorem State.afterRead_pc (s : State) (ks : List (Fin 6)) (d : Bool) : (s.afterRead ks d).pc = s.pc := rfl
@[simp] theorem State.afterRead_halted (s : State) (ks : List (Fin 6)) (d : Bool) : (s.afterRead ks d).halted = s.halted := rfl
@[simp] theorem State.afterRead_imem (s : State) (ks : List (Fin 6)) (d : Bool) : (s.afterRead ks d).imem = s.imem := rfl
@[simp] theorem State.afterRead_rom (s : State) (ks : List (Fin 6)) (d : Bool) : (s.afterRead ks d).rom = s.rom := rfl
@[simp] theorem State.afterRead_extReset (s : State) (ks : List (Fin 6)) (d : Bool) : (s.afterRead ks d).extReset = s.extReset := rfl
@[simp] theorem State.afterRead_faulted (s : State) (ks : List (Fin 6)) (d : Bool) :
    (s.afterRead ks d).faulted = s.faulted.or (firstUnwritten s ks) := rfl

/-- Everything reading a named register does. -/
theorem readNamed_eq (cfg : Config) (earlier : List (Fin 6)) (n : RegName) (s : State) :
    readNamed cfg earlier n s =
      if cfg.memcellMapped && (readSet cfg n).contains 3 then .error .memcellUndefined
      else .ok (readValue cfg s n, s.afterRead (earlier ++ readSet cfg n) (readDraws n)) := by
  unfold readNamed State.afterRead
  split
  · rfl
  · cases readDraws n <;> rfl

/-- With `MEMCELL_MAPPED` false a named register is always read. -/
theorem readNamed_unmapped {cfg : Config} (h : cfg.memcellMapped = false) (earlier : List (Fin 6)) (n : RegName)
    (s : State) : readNamed cfg earlier n s =
      .ok (readValue cfg s n, s.afterRead (earlier ++ readSet cfg n) (readDraws n)) := by
  simp [readNamed_eq, h]

/-- At the spec's defaults a named register is always read. -/
theorem readNamed_default (earlier : List (Fin 6)) (n : RegName) (s : State) :
    readNamed defaultConfig earlier n s =
      .ok (readValue defaultConfig s n, s.afterRead (earlier ++ readSet defaultConfig n) (readDraws n)) :=
  readNamed_unmapped rfl earlier n s

/-- If a read answers, it answers the register's value and a state that only the reports and the count can tell apart. -/
theorem readReg_ok {cfg : Config} {earlier : List (Fin 6)} {r : Reg4} {s s1 : State} {v : Byte}
    (h : readReg cfg earlier r s = .ok (v, s1)) :
    ∃ n, regName r = some n ∧ v = readValue cfg s n ∧ s1 = s.afterRead (earlier ++ readSet cfg n) (readDraws n) := by
  unfold readReg at h
  split at h
  · next n hn =>
    rw [readNamed_eq] at h
    split at h
    · cases h
    · cases h; exact ⟨n, hn, rfl, rfl⟩
  · cases h

/-- A bus value no rule defines is a free value, and it is counted. -/
theorem drawValue_eq (cfg : Config) (earlier : List (Fin 6)) (s : State) :
    drawValue cfg earlier s = (cfg.draw s.draws, s.afterRead earlier true) := rfl

/-- If `OE[r]` drives the bus, the value is a draw for the difference and `x[r]` for every other register. -/
theorem driveReg_ok {cfg : Config} {earlier : List (Fin 6)} {r : Reg4} {s s1 : State} {v : Byte}
    (h : driveReg cfg earlier r s = .ok (v, s1)) :
    (regName r = some .difference ∧ v = cfg.draw s.draws ∧ s1 = s.afterRead earlier true) ∨
    (∃ n, n ≠ .difference ∧ regName r = some n ∧ v = readValue cfg s n ∧
      s1 = s.afterRead (earlier ++ readSet cfg n) (readDraws n)) := by
  unfold driveReg at h
  split at h
  · next hn => cases h; exact .inl ⟨hn, rfl, rfl⟩
  · next n hne hn =>
    rw [readNamed_eq] at h
    split at h
    · cases h
    · cases h; exact .inr ⟨n, hne, hn, rfl, rfl⟩
  · cases h

/-- If a write answers, it wrote one storage register, or the write-only register and so nothing. -/
theorem writeReg_ok {cfg : Config} {r : Reg4} {v : Byte} {s s1 : State} (h : writeReg cfg r v s = .ok s1) :
    (∃ k, regName r = some (.store k) ∧ s1 = s.setStore k v) ∨ (regName r = some .sink ∧ s1 = s) := by
  unfold writeReg at h
  split at h
  · next k hk =>
    split at h
    · cases h
    · cases h; exact .inl ⟨k, hk, rfl⟩
  · next hk => cases h; exact .inr ⟨hk, rfl⟩
  all_goals cases h

/-- At the spec's defaults the jump-enable bit says whether the condition register is not zero. -/
@[simp] theorem jumpEnable_default (s : State) : jumpEnable defaultConfig s = if s.regs[1] = 0#8 then 0#8 else 1#8 := by
  have h : jumpEnable defaultConfig s = if (s.regs[1] != 0x00#8) then 0x01#8 else 0x00#8 := rfl
  rw [h]
  by_cases h1 : s.regs[1] = 0#8 <;> simp [h1]

/-- At the spec's defaults the jump-enable bit reads the condition register. -/
@[simp] theorem jumpEnableReads_default : jumpEnableReads defaultConfig = [1] := rfl

@[simp] theorem defaultConfig_memcellMapped : defaultConfig.memcellMapped = false := rfl
@[simp] theorem defaultConfig_pcReadNext : defaultConfig.pcReadNext = false := rfl
@[simp] theorem defaultConfig_hltRstSwap : defaultConfig.hltRstSwap = false := rfl
@[simp] theorem defaultConfig_rev2 : defaultConfig.rev2 = none := rfl
@[simp] theorem defaultConfig_revision : defaultConfig.revision = .one := rfl
@[simp] theorem defaultConfig_aluAdd (a b : Byte) : defaultConfig.aluAdd a b = a + b := rfl
@[simp] theorem defaultConfig_aluSub (a b : Byte) : defaultConfig.aluSub a b = a - b := rfl
@[simp] theorem defaultConfig_cond (v : Byte) : defaultConfig.cond v = (v != 0x00#8) := rfl

end Sys2Proof.Machine
end

