-- ==== Sys2Proof/Laws/Meanings.lean ====
section
/-! SUPPORT. What each instruction does when it answers a next state, said once, for any parameters. -/

namespace Sys2Proof.Machine

/-- The fixed-name meanings are the general ones at the spec's defaults. -/
theorem exec_eq_execIn (i : Instr) (s : State) : exec i s = execIn defaultConfig i s := by
  cases i <;> rfl

theorem movIn_next {cfg : Config} {dst src : Reg4} {s t : State} (h : movIn cfg dst src s = .next t) :
    ∃ n, regName src = some n ∧
      ((∃ k, regName dst = some (.store k) ∧
          t = ((s.afterRead (readSet cfg n) (readDraws n)).setStore k (readValue cfg s n)).advance) ∨
        (regName dst = some .sink ∧ t = (s.afterRead (readSet cfg n) (readDraws n)).advance)) := by
  unfold movIn at h
  split at h
  · split at h
    · cases h
    · next hr =>
      obtain ⟨n, hn, rfl, rfl⟩ := readReg_ok hr
      split at h
      · cases h
      · next hw =>
        cases h
        refine ⟨n, hn, ?_⟩
        rcases writeReg_ok hw with ⟨k, hk, rfl⟩ | ⟨hk, rfl⟩
        · exact .inl ⟨k, hk, rfl⟩
        · exact .inr ⟨hk, rfl⟩
  · cases h

theorem ldiIn_next {cfg : Config} {dst : Reg4} {imm : Imm4} {s t : State} (h : ldiIn cfg dst imm s = .next t) :
    (∃ k, regName dst = some (.store k) ∧ t = (s.setStore k (immValue imm)).advance) ∨
      (regName dst = some .sink ∧ t = s.advance) := by
  unfold ldiIn at h
  split at h
  · split at h
    · cases h
    · next hw =>
      cases h
      rcases writeReg_ok hw with ⟨k, hk, rfl⟩ | ⟨hk, rfl⟩
      · exact .inl ⟨k, hk, rfl⟩
      · exact .inr ⟨hk, rfl⟩
  · cases h

/-- A jump that answers went to its target, having read it, or past itself. -/
theorem jumpReg_next {cfg : Config} {jneg : Bool} {t : Reg4} {s u : State} (h : jumpReg cfg jneg t s = .next u) :
    (taken cfg jneg s = true ∧ ∃ v s1, driveReg cfg [conditionReg] t s = .ok (v, s1) ∧ u = s1.jumpTo v) ∨
      (taken cfg jneg s = false ∧ u = (s.noteReads [conditionReg]).advance) := by
  unfold jumpReg at h
  split at h
  · split at h
    · next ht =>
      split at h
      · cases h
      · next hd => cases h; exact .inl ⟨ht, _, _, hd, rfl⟩
    · next ht => cases h; exact .inr ⟨by simpa using ht, rfl⟩
  · cases h

theorem jniIn_next {cfg : Config} {imm : Imm4} {s u : State} (h : jniIn cfg imm s = .next u) :
    (taken cfg false s = true ∧ u = (s.noteReads [conditionReg]).jumpTo (immValue imm)) ∨
      (taken cfg false s = false ∧ u = (s.noteReads [conditionReg]).advance) := by
  simp only [jniIn] at h
  split at h
  · next ht => cases h; exact .inl ⟨ht, rfl⟩
  · next ht => cases h; exact .inr ⟨by simpa using ht, rfl⟩

end Sys2Proof.Machine
end

