-- ==== Sys2Proof/Laws/Memory.lean ====
section
/-! SUPPORT. Program memory: a read after a write, and that every memory operation keeps the canonical form. -/

namespace Sys2Proof.Machine

@[simp] theorem Memory.read_nil (a : Nat) : Memory.read [] a = unlistedByte := rfl

theorem Memory.read_cons (k : Nat) (v : Byte) (m : Memory) (a : Nat) :
    Memory.read ((k, v) :: m) a = if k = a then v else Memory.read m a := rfl

/-- The canonical form from a higher address on is one from a lower address on. -/
theorem Memory.wfFrom_mono {lo lo' : Nat} {m : Memory} (hle : lo' ≤ lo) (h : Memory.wfFrom lo m = true) :
    Memory.wfFrom lo' m = true := by
  cases m with
  | nil => rfl
  | cons c m =>
    obtain ⟨k, v⟩ := c
    simp only [Memory.wfFrom, Bool.and_eq_true, decide_eq_true_eq] at h ⊢
    exact ⟨⟨⟨by omega, h.1.1.2⟩, h.1.2⟩, h.2⟩

/-- An address below every listed one reads as an unlisted byte. -/
theorem Memory.read_below {lo a : Nat} {m : Memory} (h : Memory.wfFrom lo m = true) (ha : a < lo) :
    Memory.read m a = unlistedByte := by
  induction m generalizing lo with
  | nil => rfl
  | cons c m ih =>
    obtain ⟨k, v⟩ := c
    simp only [Memory.wfFrom, Bool.and_eq_true, decide_eq_true_eq] at h
    rw [Memory.read_cons, if_neg (by omega)]
    exact ih h.2 (by omega)

/-- The read of one byte after the write of another or the same, in canonical memory. -/
theorem Memory.read_write {lo : Nat} {m : Memory} (h : Memory.wfFrom lo m = true) (a : Nat) (v : Byte) (b : Nat) :
    Memory.read (Memory.write m a v) b = if b = a then v else Memory.read m b := by
  induction m generalizing lo with
  | nil =>
    simp only [Memory.write]
    split_ifs <;> simp_all [Memory.read_cons]
    omega
  | cons c m ih =>
    obtain ⟨k, w⟩ := c
    simp only [Memory.wfFrom, Bool.and_eq_true, decide_eq_true_eq] at h
    have hrec := ih h.2
    have hbelow := fun hb => Memory.read_below (a := b) h.2 hb
    simp only [Memory.write]
    rcases Nat.lt_trichotomy a k with hlt | heq | hgt
    · rw [if_pos hlt]
      split_ifs with hv hb hb
      · subst hb; rw [Memory.read_cons, if_neg (by omega), hbelow (by omega), hv]
      · rfl
      · subst hb; rw [Memory.read_cons, if_pos rfl]
      · rw [Memory.read_cons, if_neg (by omega)]
    · subst heq
      rw [if_neg (by omega), if_pos rfl]
      split_ifs with hv hb hb
      · subst hb; rw [hbelow (by omega), hv]
      · rw [Memory.read_cons, if_neg (by omega)]
      · subst hb; rw [Memory.read_cons, if_pos rfl]
      · rw [Memory.read_cons, if_neg (by omega), Memory.read_cons, if_neg (by omega)]
    · rw [if_neg (by omega), if_neg (by omega), Memory.read_cons, Memory.read_cons, hrec]
      split_ifs <;> first | rfl | omega

theorem Memory.wfFrom_write {lo : Nat} {m : Memory} (h : Memory.wfFrom lo m = true) {a : Nat} (hlo : lo ≤ a)
    (ha : a < 256) (v : Byte) : Memory.wfFrom lo (Memory.write m a v) = true := by
  induction m generalizing lo with
  | nil =>
    simp only [Memory.write]
    split_ifs with hv
    · rfl
    · simp [Memory.wfFrom, hlo, ha, hv]
  | cons c m ih =>
    obtain ⟨k, w⟩ := c
    have h0 := h
    simp only [Memory.wfFrom, Bool.and_eq_true, decide_eq_true_eq] at h
    simp only [Memory.write]
    rcases Nat.lt_trichotomy a k with hlt | heq | hgt
    · rw [if_pos hlt]
      split_ifs with hv
      · exact h0
      · simp only [Memory.wfFrom, Bool.and_eq_true, decide_eq_true_eq, bne_iff_ne, ne_eq]
        exact ⟨⟨⟨hlo, ha⟩, hv⟩, ⟨⟨by omega, h.1.1.2⟩, by simpa using h.1.2⟩, h.2⟩
    · subst heq
      rw [if_neg (by omega), if_pos rfl]
      split_ifs with hv
      · exact Memory.wfFrom_mono (by omega) h.2
      · simp only [Memory.wfFrom, Bool.and_eq_true, decide_eq_true_eq, bne_iff_ne, ne_eq]
        exact ⟨⟨⟨hlo, ha⟩, hv⟩, h.2⟩
    · rw [if_neg (by omega), if_neg (by omega)]
      simp only [Memory.wfFrom, Bool.and_eq_true, decide_eq_true_eq]
      exact ⟨⟨⟨h.1.1.1, h.1.1.2⟩, h.1.2⟩, ih h.2 (by omega)⟩

/-- A write inside program memory keeps the canonical form. -/
theorem Memory.wf_write {m : Memory} (h : Memory.wf m = true) {a : Nat} (ha : a < 256) (v : Byte) :
    Memory.wf (Memory.write m a v) = true :=
  Memory.wfFrom_write h (Nat.zero_le a) ha v

/-- Writing bytes inside program memory keeps the canonical form. -/
theorem Memory.wf_writeBytes {m : Memory} (h : Memory.wf m = true) (vs : List Byte) {a : Nat}
    (ha : a + vs.length ≤ 256) : Memory.wf (Memory.writeBytes m a vs) = true := by
  induction vs generalizing m a with
  | nil => exact h
  | cons v vs ih =>
    simp only [List.length_cons] at ha
    exact ih (Memory.wf_write h (by omega) v) (by omega)

/-- Program memory right after reset is in canonical form. -/
theorem Memory.wf_reset : Memory.wf State.reset.imem = true := rfl

/-- Placing an instruction where the next cycle fetches keeps the canonical form. -/
theorem State.placeInstruction_wf {s : State} (h : Memory.wf s.imem = true) (b : Byte) :
    Memory.wf (s.placeInstruction b).imem = true :=
  Memory.wf_write h s.pc.isLt b

end Sys2Proof.Machine
end

