-- ==== Sys2Proof/Laws/PerInstr.lean ====
section
/-! SUPPORT. Statements about every instruction as syntax, one lemma per constructor. `Encodes`: an instruction has a byte
exactly when it is well formed (30_encoding.md R84, R86). -/

namespace Sys2Proof.Laws.Encodes

/-- The encoder gives the instruction a byte exactly when it is well formed. -/
def Statement (i : Instr) : Prop := ∀ swap : Bool, (encode swap i).isOk = wellFormed i

theorem mov (dst src : Reg4) : Statement (.mov dst src) := by
  intro swap
  simp only [encode, wellFormed, destinationWritable]
  cases isValid (.mov dst src) <;> cases isWriteCapable dst <;> rfl

theorem ldi (dst : Reg4) (imm : Imm4) : Statement (.ldi dst imm) := by
  intro swap
  simp only [encode, wellFormed, destinationWritable]
  cases isValid (.ldi dst imm) <;> cases isWriteCapable dst <;> rfl

theorem jez (t : Reg4) : Statement (.jez t) := by
  intro swap
  simp only [encode, wellFormed, destinationWritable]
  cases isValid (.jez t) <;> rfl

theorem jnz (t : Reg4) : Statement (.jnz t) := by
  intro swap
  simp only [encode, wellFormed, destinationWritable]
  cases isValid (.jnz t) <;> rfl

theorem jni (imm : Imm4) : Statement (.jni imm) := fun _ => rfl

theorem hlt : Statement .hlt := fun _ => rfl

theorem rst : Statement .rst := fun _ => rfl

end Sys2Proof.Laws.Encodes
end

