-- ==== Sys2Proof/Laws/Step.lean ====
section
/-! SUPPORT. What a machine cycle can do, said once. -/

namespace Sys2Proof.Machine

/-- The fixed-name step is the general one at the spec's defaults. -/
theorem step_eq_stepIn (s : State) : step s = stepIn defaultConfig s := by
  have h : exec = execIn defaultConfig := by
    funext i s; exact exec_eq_execIn i s
  simp only [step, stepIn, h]

theorem romByteIs_iff (cfg : Config) (p : Fin 3) (b y : Byte) : romByteIs cfg p b y = true ↔ romPage cfg b p = .ok y := by
  unfold romByteIs
  cases romPage cfg b p <;> simp

/-- An installed page is the translator's exactly when it returns the translator's byte at every instruction byte. -/
theorem pageIsGenerated_iff (cfg : Config) (s : State) (p : Fin 3) :
    pageIsGenerated cfg p s.rom[p] = true ↔ ∀ b : Byte, s.romByte cfg p b = romPage cfg b p := by
  unfold State.romByte
  cases s.rom[p] with
  | generated => simp [pageIsGenerated]
  | programmed bytes =>
    simp only [pageIsGenerated, List.all_eq_true, List.mem_finRange, true_implies, romByteIs_iff]
    exact ⟨fun h b => (h b.toFin).symm, fun h n => (h (BitVec.ofFin n)).symm⟩

/-- No refusal of the ROM pages exactly when they are ready. -/
theorem romRefusal_eq_none_iff (cfg : Config) (s : State) : romRefusal cfg s = none ↔ s.RomReady cfg := by
  have h0 := pageIsGenerated_iff cfg s 0
  have h1 := pageIsGenerated_iff cfg s 1
  have h2 := pageIsGenerated_iff cfg s 2
  have hp : (∀ (p : Fin 3) (b : Byte), s.romByte cfg p b = romPage cfg b p) ↔
      pageIsGenerated cfg 0 s.rom[0] = true ∧ pageIsGenerated cfg 1 s.rom[1] = true ∧
        pageIsGenerated cfg 2 s.rom[2] = true := by
    constructor
    · exact fun h => ⟨h0.mpr (h 0), h1.mpr (h 1), h2.mpr (h 2)⟩
    · rintro ⟨a, b, c⟩ p
      match p with
      | 0 => exact h0.mp a
      | 1 => exact h1.mp b
      | 2 => exact h2.mp c
  unfold romRefusal State.RomReady
  rw [hp]
  cases revisionTables cfg with
  | error e => simp
  | ok t =>
    simp only [Bool.and_eq_true, Except.ok.injEq, exists_eq', true_and]
    split <;> simp_all

/-- The constant ROM pages are ready wherever the revision's tables are supplied. -/
theorem romReady_generated {cfg : Config} {s : State} {t : RevisionTables} (ht : revisionTables cfg = .ok t)
    (h : s.rom = resetRom) : s.RomReady cfg := by
  refine ⟨⟨t, ht⟩, fun p b => ?_⟩
  have : s.rom[p] = .generated := by rw [h]; simp [resetRom]
  simp only [State.romByte, this]

/-- Everything a machine cycle that answers can be: a reset, an idle cycle of a halted machine, or one instruction. -/
theorem cycle_next {cfg : Config} {run : Instr → State → Result} {s t : State}
    (h : cycle cfg run s = .next t) :
    (s.extReset = true ∧ t = s.takeExternalReset) ∨
    (s.extReset = false ∧ s.halted = true ∧ t = s) ∨
    (s.extReset = false ∧ s.halted = false ∧ romRefusal cfg s = none ∧
      run (decode cfg.hltRstSwap s.fetch) s = .next t) := by
  unfold cycle at h
  split at h
  · next hr => cases h; exact .inl ⟨hr, rfl⟩
  · next hr =>
    split at h
    · next hh => cases h; exact .inr (.inl ⟨by simpa using hr, hh, rfl⟩)
    · next hh =>
      split at h
      · cases h
      · next hrom =>
        refine .inr (.inr ⟨by simpa using hr, by simpa using hh, hrom, ?_⟩)
        unfold runByte at h
        split at h
        · next hd =>
          simp only [decodeChecked] at hd
          split at hd
          · cases hd; exact h
          · cases hd
        · cases h

end Sys2Proof.Machine
end

