-- ==== Sys2Proof/Tests/Slice0.lean ====
section
/-! SUPPORT. The model's own tests. Expected results are the worked examples and vectors of 95_test_vectors.md and words
written out bit by bit from 30_encoding.md R73; then one witness for the hypotheses of each statement. -/

open Sys2Proof Sys2Proof.Machine

namespace Sys2Proof.Tests

/-! ## Well-formedness: an ill-formed term for each check -/

theorem test_wellFormed_refuses_mov_dst_14 : wellFormed (.mov 14#4 0#4) = false := by decide
theorem test_wellFormed_refuses_mov_src_15 : wellFormed (.mov 0#4 15#4) = false := by decide
theorem test_wellFormed_refuses_mov_into_pc : wellFormed (.mov 7#4 0#4) = false ∧ isValid (.mov 7#4 0#4) = true := by decide
theorem test_wellFormed_refuses_ldi : wellFormed (.ldi 15#4 0#4) = false ∧ wellFormed (.ldi 13#4 0#4) = false := by decide
theorem test_wellFormed_refuses_jez_14 : wellFormed (.jez 14#4) = false := by decide
theorem test_wellFormed_refuses_jnz_15 : wellFormed (.jnz 15#4) = false := by decide
theorem test_wellFormed_accepts_edges : wellFormed (.mov 6#4 13#4) = true ∧ wellFormed (.jez 13#4) = true := by decide

/-! ## Decoding: words written out bit by bit (R73, 95 §2.1) -/

theorem test_decode_mov : decode false 0b00101100#8 = .mov 2#4 12#4 ∧ decode false 0b01101101#8 = .mov 6#4 13#4 := by decide
theorem test_decode_ldi : decode false 0b10000101#8 = .ldi 0#4 5#4 ∧ decode false 0b11101111#8 = .ldi 6#4 15#4 := by decide
theorem test_decode_jez : decode false 0b00001110#8 = .jez 0#4 ∧ decode false 0b01011111#8 = .jez 13#4 ∧
    decode false 0b00001111#8 = .jez 8#4 ∧ decode false 0b01111110#8 = .jez 7#4 := by decide
theorem test_decode_jnz : decode false 0b01110010#8 = .jnz 2#4 ∧ decode false 0b01111101#8 = .jnz 13#4 := by decide
theorem test_decode_jni : decode false 0b11110010#8 = .jni 2#4 ∧ decode false 0b11111111#8 = .jni 15#4 := by decide
theorem test_decode_hlt : decode false 0b01101111#8 = .hlt ∧ decode true 0b01111111#8 = .hlt := by decide
theorem test_decode_rst : decode false 0b01111111#8 = .rst ∧ decode true 0b01101111#8 = .rst := by decide

/-- What `encode` answers, comparable. -/
def encoded (i : Instr) : Option Byte := (encode false i).toOption

/-- The error of an outcome, if it is one. -/
def errorOf {ε α : Type} : Except ε α → Option ε
  | .ok _ => none
  | .error e => some e

/-- 95 §2.3. -/
theorem test_encode_bytes :
    encoded (.mov 6#4 13#4) = some 0x6D#8 ∧ encoded (.mov 0#4 12#4) = some 0x0C#8 ∧ encoded (.ldi 6#4 15#4) = some 0xEF#8 ∧
    encoded (.jez 13#4) = some 0x5F#8 ∧ encoded (.jez 7#4) = some 0x7E#8 ∧ encoded (.jnz 13#4) = some 0x7D#8 ∧
    encoded (.jni 15#4) = some 0xFF#8 := by decide

/-- 95 §2.3, the refused rows. -/
theorem test_encode_errors :
    errorOf (encode false (.mov 7#4 0#4)) = some (.illegalDestination 7#4) ∧
    errorOf (encode false (.ldi 13#4 0#4)) = some (.illegalDestination 13#4) ∧
    errorOf (encode false (.mov 14#4 7#4)) = some .invalidInstruction ∧
    errorOf (encode false (.mov 0#4 15#4)) = some .invalidInstruction ∧
    errorOf (encode false (.jez 15#4)) = some .invalidInstruction ∧
    errorOf (encode false (.jnz 14#4)) = some .invalidInstruction := by decide

/-- The table's rows through the host's entry. -/
theorem test_decodeTableWord : decodeTableWord 8 0x0E = some (.jez 0#4) ∧ decodeTableWord 8 0xF0 = some (.jni 0#4) := by decide

/-! ## One step (95 §3), from a small state -/

/-- The machine at `pc` with the registers a c g m x y (`none`: unwritten) and an instruction byte at `pc`. -/
def before (pc : Byte) (a c g m x y : Option Byte) (b : Byte) : State :=
  State.placeInstruction
    { State.reset with
      pc := pc
      regs := #v[a.getD 0#8, c.getD 0#8, g.getD 0#8, m.getD 0#8, x.getD 0#8, y.getD 0#8]
      written := #v[a.isSome, c.isSome, g.isSome, m.isSome, x.isSome, y.isSome] } b

/-- One register and `pc` after a strict step. -/
def after (r : Fin 6) (s : State) : Option (Option Byte × Byte) :=
  match strictStep s with
  | .next t => some (t.st r, t.pc)
  | _ => none

/-- The `pc` after a strict step. -/
def pcAfter (s : State) : Option Byte := (after 0 s).map Prod.snd

/-- The fault of a strict step. -/
def faultAfter (s : State) : Option Fault :=
  match strictStep s with
  | .fault f => some f
  | _ => none

/-- 95 §3.1: a copy, the difference, the wrapping sum, a destination that is a source, the program counter. -/
theorem test_mov_values :
    after 2 (before 0x10 (some 5) none none none none none 0x20) = some (some 5, 0x11) ∧
    after 2 (before 0x10 none none none none (some 3) (some 5) 0x2C) = some (some 0xFE, 0x11) ∧
    after 2 (before 0x10 none none none none (some 0xFF) (some 1) 0x2B) = some (some 0, 0x11) ∧
    after 4 (before 0x10 none none none none (some 0x10) (some 0x20) 0x4B) = some (some 0x30, 0x11) ∧
    after 0 (before 0x23 none none none none none none 0x07) = some (some 0x23, 0x24) ∧
    after 0 (before 0x10 none (some 9) none none none none 0x09) = some (some 1, 0x11) ∧
    after 0 (before 0xFF none none none none none none 0x0D) = some (some 0, 0x00) := by decide

/-- 95 §3.1, the faults of the strict step, and that the machine itself goes on there (log entry 2). -/
theorem test_mov_faults :
    faultAfter (before 0x10 none none none none none none 0x60) = some (.unwrittenRegister 0) ∧
    faultAfter (before 0x10 none none none none none none 0x02) = some (.unwrittenRegister 2) ∧
    faultAfter (before 0x10 none none none none (some 1) none 0x2B) = some (.unwrittenRegister 5) ∧
    faultAfter (before 0x10 none none none none none none 0x09) = some (.unwrittenRegister 1) ∧
    (∃ t, step (before 0x10 none none none none none none 0x02) = .next t ∧ t.pc = 0x11#8) :=
  ⟨by decide, by decide, by decide, by decide, _, rfl, by decide⟩

/-- 95 §3.2: the upper bits are cleared; the write-only register changes nothing; the wrap. -/
theorem test_ldi :
    after 0 (before 0 none none none none none none 0x85) = some (some 5, 1) ∧
    after 0 (before 0 (some 0xAB) none none none none none 0x81) = some (some 1, 1) ∧
    after 0 (before 0 none none none none none none 0xE3) = some (none, 1) ∧
    after 5 (before 0xFF none none none none none none 0xDF) = some (some 0x0F, 0) := by decide

/-- 95 §3.3: taken, not taken, through zero, through the program counter, through the sum, the wrap. -/
theorem test_jez :
    pcAfter (before 8 (some 0x20) (some 0) none none none none 0x0E) = some 0x20 ∧
    pcAfter (before 8 none (some 1) none none none none 0x0E) = some 9 ∧
    pcAfter (before 8 none (some 0) none none none none 0x5F) = some 0 ∧
    pcAfter (before 0x30 none (some 0) none none none none 0x7E) = some 0x30 ∧
    pcAfter (before 8 none (some 0) none none (some 0x0F) (some 1) 0x3F) = some 0x10 ∧
    pcAfter (before 0xFF none (some 1) none none none none 0x0E) = some 0 := by decide

/-- 95 §3.3: the condition register is reported before the target. -/
theorem test_jez_faults :
    faultAfter (before 8 none none none none none none 0x0E) = some (.unwrittenRegister 1) ∧
    faultAfter (before 8 none (some 0) none none none none 0x0E) = some (.unwrittenRegister 0) := by decide

/-- 95 §3.4. -/
theorem test_jnz :
    pcAfter (before 8 none (some 3) (some 0x40) none none none 0x72) = some 0x40 ∧
    pcAfter (before 8 none (some 0) none none none none 0x72) = some 9 ∧
    pcAfter (before 8 none (some 5) none none none none 0x71) = some 5 ∧
    pcAfter (before 0x44 none (some 1) none none none none 0x77) = some 0x44 ∧
    pcAfter (before 8 none (some 1) none none (some 0x80) (some 0x90) 0x7B) = some 0x10 := by decide

/-- 95 §3.5. -/
theorem test_jni :
    pcAfter (before 8 none (some 1) none none none none 0xF2) = some 2 ∧
    pcAfter (before 8 none (some 0) none none none none 0xF2) = some 9 ∧
    pcAfter (before 8 none (some 0xFF) none none none none 0xFF) = some 0x0F ∧
    pcAfter (before 0xFF none (some 0) none none none none 0xF3) = some 0 ∧
    faultAfter (before 8 none none none none none none 0xF2) = some (.unwrittenRegister 1) := by decide

/-- 95 §3.6: halted, `pc` and registers kept. -/
theorem test_hlt :
    after 0 (before 1 (some 5) none none none none none 0x6F) = some (some 5, 1) ∧
    (∃ t, step (before 1 (some 5) none none none none none 0x6F) = .next t ∧ t.halted = true ∧ t.final = true) :=
  ⟨by decide, _, rfl, by decide, by decide⟩

/-- 95 §3.6: all of a..y unwritten, `pc` 0. -/
theorem test_rst :
    after 0 (before 9 (some 5) (some 1) none none none none 0x7F) = some (none, 0) ∧
    after 1 (before 9 (some 5) (some 1) none none none none 0x7F) = some (none, 0) := by decide

/-! ## Control words and pages -/

/-- The lines of a signal set as 95 §2.1 prints them: `OE[0..13]`, `IE[0..7]`, `ALU_SUB JNEG IMM HLT RST`. -/
def levels (w : SignalSet) : List Bool × List Bool × List Bool :=
  ((List.range 14).map w.oe.getLsbD, (List.range 8).map w.ie.getLsbD, [w.aluSub, w.jneg, w.imm, w.hlt, w.rst])

/-- Revision 1's levels of a byte, as if every signal were wired. -/
def levelsOfByte (b : Byte) : List Bool × List Bool × List Bool :=
  levels (symmDiffSet (controlWord (decode false b)) revision1ActiveLow)

/-- 95 §2.1, rows 0x2C, 0x7E, 0x6F and 0xE3: `1` is `true`. -/
theorem test_levels :
    levelsOfByte 0x2C = ([true, true, true, true, true, true, true, true, true, true, true, false, true, true],
      [false, false, true, false, false, false, false, false], [true, false, true, false, true]) ∧
    levelsOfByte 0x7E = ([true, true, true, true, true, true, true, false, true, true, true, true, true, true],
      [false, false, false, false, false, false, false, true], [false, true, true, false, true]) ∧
    (levelsOfByte 0x6F).2.2 = [false, false, true, true, true] ∧ (levelsOfByte 0x7F).2.2 = [false, false, true, false, false] ∧
    (levelsOfByte 0xE3).2 = ([false, false, false, false, false, false, true, false], [false, false, false, false, true]) := by
  decide

/-- A pin table for tests: `IE[0]` at pin 9, `IMM` at pin 0, nothing else wired. -/
def twoPins : Signal → Option (Fin 24)
  | .ie 0 => some 9
  | .imm => some 0
  | _ => none

/-- The pages of `ldi a 5` and of `hlt` under that table (R150, R153): pin 9 is bit 1 of page 1; an asserted `IMM` is 0. -/
theorem test_romPage :
    (romPage { defaultConfig with pinOf := twoPins } 0x85 1).toOption = some 0x02#8 ∧
    (romPage { defaultConfig with pinOf := twoPins } 0x85 0).toOption = some 0x00#8 ∧
    (romPage { defaultConfig with pinOf := twoPins } 0x6F 0).toOption = some 0x01#8 := by decide

/-- R65, R149, R264: a machine whose page 1 the host has programmed with `page1` (pages of zeros elsewhere come from an unwired
table); what its step does under parameters `cfg`. -/
def programmedPage (page1 : Vector Byte 256) : State :=
  { State.reset with rom := #v[.generated, .programmed page1, .generated] }

/-- An installed page returns the byte programmed into it (R65), and one that is not the translator's is refused (R264). -/
theorem test_programmed_page :
    ((programmedPage (Vector.replicate 256 0x01#8)).romByte { defaultConfig with pinOf := twoPins } 1 0x85).toOption =
      some 0x01#8 ∧
    (romRefusal { defaultConfig with pinOf := twoPins } (programmedPage (Vector.replicate 256 0x01#8))) =
      some .romPagesDiffer := by decide

/-- D6: with `REVISION = 2` and no tables, or tables that R149 rules out, no instruction runs. -/
theorem test_revision_two :
    romRefusal { defaultConfig with revision := .two } State.reset = some .revisionNotSupplied ∧
    romRefusal { defaultConfig with revision := .two, rev2 := some (revision1Tables defaultConfig) } State.reset =
      some .revisionNotSupplied ∧
    romRefusal { defaultConfig with
      revision := .two
      rev2 := some { inventory := everySignal, activeLow := noSignals, pinOf := twoPins, extra := [⟨true, some 23⟩] } }
      State.reset = none := by decide

/-- R29: the default jump-enable bit follows the machine's own `COND`. -/
theorem test_jump_enable_follows_cond :
    jumpEnable defaultConfig (State.reset.setStore 1 1#8) = 0x01#8 ∧
    jumpEnable { defaultConfig with cond := fun v => v == 0#8 } (State.reset.setStore 1 1#8) = 0x00#8 := by decide

/-! ## Assembly text (95 §1, §2.4) -/

/-- A text as bytes. -/
def text (cs : List Char) : List Byte := cs.map ascii

/-- The byte of a line: `some none` for a blank line. -/
def lineByte (cs : List Char) : Option (Option Byte) := (assembleLine defaultConfig (text cs)).toOption

/-- The error of a line. -/
def lineError (cs : List Char) : Option AsmError := errorOf (assembleLine defaultConfig (text cs))

theorem test_assemble_bytes :
    lineByte ['M', 'O', 'V', ' ', 'A', ' ', 'C'] = some (some 0x01#8) ∧
    lineByte [' ', ' ', 'm', 'o', 'v', ' ', ' ', 'a', ' ', 'c', ' ', ' '] = some (some 0x01#8) ∧
    lineByte ['m', 'o', 'v', ' ', 'a', ' ', 'c', ' ', ';', ' ', 't'] = some (some 0x01#8) ∧
    lineByte [';', ' ', 'c'] = some none ∧
    lineByte ['l', 'd', 'i', ' ', 'a', ' ', '0', 'b', '1', '0', '1'] = some (some 0x85#8) ∧
    lineByte ['l', 'd', 'i', ' ', 'a', ' ', '0', 'X', 'F'] = some (some 0x8F#8) ∧
    lineByte ['j', 'e', 'z', ' ', 'p'] = some (some 0x7E#8) ∧
    lineByte ['j', 'n', 'i', ' ', '1', '5'] = some (some 0xFF#8) := by decide

theorem test_assemble_line_errors :
    lineError ['m', 'o', 'v', ' ', 'a', ' ', 'c', ' ', 'x'] = some .lineTooLong ∧
    lineError ['m', 'o', 'v', 'a', 'b', 'c', 'd', ' ', 'a'] = some .tokenTooLong ∧
    lineError ['m', 'o', 'v', ' ', 'a'] = some .invalidFormat ∧
    lineError ['m', 'o', 'v', 'x', ' ', 'a', ' ', 'c'] = some .invalidOperation ∧
    lineError ['m', 'o', 'v', ' ', 'a', ' ', 'q'] = some .invalidRegister ∧
    lineError ['m', 'o', 'v', ' ', 'q'] = some .invalidFormat ∧
    lineError ['m', 'o', 'v', ' ', 'p', ' ', 'a'] = some (.illegalDestination 7#4) ∧
    errorOf (assembleLine defaultConfig [0x61, 0xC3]) = some .invalidCharacter ∧
    errorOf (assembleLine defaultConfig [0x3B, 0xC3]) = some .invalidCharacter := by decide

/-- 95 §1.1 and the immediates of §2.4. -/
theorem test_immediate_errors :
    errorOf (parseImm (text ['1', '6'])) = some .immOverflow ∧ errorOf (parseImm (text ['0', 'x', 'g'])) = some .immDigit ∧
    errorOf (parseImm (text ['0', 'x', 'a', 'b'])) = some .immLength ∧ errorOf (parseImm (text ['0', 'z'])) = some .immBase ∧
    errorOf (parseImm (text ['0', 'b'])) = some .immLength ∧ errorOf (parseImm (text ['0', 'b', '2'])) = some .immDigit ∧
    errorOf (parseImm (text ['1', '0', '0'])) = some .immLength ∧ errorOf (parseImm (text ['0', '1'])) = some .immBase ∧
    errorOf (parseImm (text ['a'])) = some .immDigit := by decide

theorem test_immediate_values :
    (parseImm (text ['0'])).toOption = some 0#4 ∧ (parseImm (text ['0', 'x', 'f'])).toOption = some 15#4 ∧
    (parseImm (text ['0', 'b', '1', '1', '1', '1'])).toOption = some 15#4 ∧ (parseImm (text ['1', '5'])).toOption = some 15#4 ∧
    (parseImm (text ['0', 'b', '1'])).toOption = some 1#4 := by decide

/-- 95 §1.3, §1.4: what `compile` ends with and what it wrote. -/
def compiled (cs : List Char) : Option Nat × Option (Nat × AsmError) × List Byte :=
  let r := compile defaultConfig ⟨text cs, .eof⟩ OutStream.fresh
  (r.1.toOption, errorOf r.1, r.2.sent)

theorem test_compile :
    compiled ['l', 'd', 'i', ' ', 'a', ' ', '5', '\n', 'h', 'l', 't', '\n'] = (some 2, none, [0x85, 0x6F]) ∧
    compiled ['l', 'd', 'i', ' ', 'a', ' ', '5', '\n', '\n', 'h', 'l', 't', '\n'] = (some 3, none, [0x85, 0x6F]) ∧
    compiled ['l', 'd', 'i', ' ', 'a', ' ', '5', '\n', 'h', 'l', 't'] = (some 2, none, [0x85, 0x6F]) ∧
    compiled ['l', 'd', 'i', ' ', 'a', ' ', '5', '\n', 'h', 'l', 't', '\n', 'f', 'o', 'o', '\n', 'h', 'l', 't', '\n'] =
      (none, some (3, .invalidOperation), [0x85, 0x6F]) := by decide

theorem test_disassemble :
    (disassemble defaultConfig ⟨[0x7E, 0x6F, 0xE0], .eof⟩ OutStream.fresh).2.sent =
      text ['j', 'e', 'z', ' ', 'p', '\n', 'h', 'l', 't', '\n', 'l', 'd', 'i', ' ', 'w', ' ', '0', '\n'] := by decide

/-- 95 §1.7. -/
theorem test_explain :
    explainInstr defaultConfig (.mov 0#4 1#4) = text ['c', ' ', '>', ' ', 'a'] ∧
    explainInstr defaultConfig .hlt = text ['h', 'a', 'l', 't'] ∧
    (formatInstr defaultConfig (.mov 14#4 0#4)).take 5 = text [';', ' ', 'i', 'n', 'v'] ∧
    (explainInstr defaultConfig (.mov 14#4 0#4)).take 7 = text ['i', 'n', 'v', 'a', 'l', 'i', 'd'] := by decide

/-! ## The host's moves -/

/-- R275: the load is refused while the machine runs, and taken while it is held in reset. -/
theorem test_load :
    errorOf (State.reset.loadProgram [0x85, 0x6F]) = some .machineRunning ∧
    ((State.reset.assertReset.loadProgram [0x85, 0x6F]).toOption.map fun s => (s.imem.read 0, s.imem.read 1)) =
      some (0x85#8, 0x6F#8) := by decide

set_option maxRecDepth 4000 in
/-- R65, R275: a page file of 256 bytes is taken while the machine is held in reset, and no other. -/
theorem test_program_rom :
    errorOf (State.reset.programRom 0 (List.replicate 256 0x00#8)) = some .machineRunning ∧
    errorOf (State.reset.assertReset.programRom 0 [0x00#8]) = some .notAPage ∧
    ((State.reset.assertReset.programRom 2 (List.replicate 256 0x5A#8)).toOption.map fun s =>
      (s.romByte defaultConfig 2 0x85).toOption) = some (some 0x5A#8) := by decide

/-- R274, R275: a halted state with a recorded fault is not given back as final. -/
theorem test_observe :
    (State.reset.halt.observe.final.isSome, State.reset.observe.final.isSome) = (true, false) ∧
    ({ State.reset.halt with faulted := some (.unwrittenRegister 0) } : State).observe = ⟨true, none⟩ := by decide

/-! ## Witnesses: a state and operands that meet the hypotheses of each statement -/

/-- A machine whose next cycle is an external reset. -/
def resetting : State := State.reset.assertReset
/-- A halted machine. -/
def stopped : State := State.reset.halt
/-- Register c holds 1. -/
def condSet : State := State.reset.setStore 1 1#8
/-- A running machine with a fault recorded. -/
def faulty : State := { State.reset with faulted := some (.unwrittenRegister 2) }
/-- The default parameters with the memory cell mapped. -/
def mapped : Config := { defaultConfig with memcellMapped := true }
/-- The default parameters with the test's pin table. -/
def wired : Config := { defaultConfig with pinOf := twoPins }
/-- Revision 2 with no tables. -/
def bareRev2 : Config := { defaultConfig with revision := .two }
/-- Parameters whose derived registers read nothing but what they say. -/
def localConfig : Config := { defaultConfig with shiftFn := fun s => s.regs[4], shiftReads := [4] }

theorem witness_DecodeAndEncodeAgree : wellFormed (.mov 6#4 13#4) = true ∧ wellFormed (.ldi 0#4 15#4) = true ∧
    wellFormed (.jez 13#4) = true ∧ wellFormed (.jnz 0#4) = true := by decide
theorem witness_EncoderErrorsExactly : isValid (.jez 14#4) = false ∧
    (isValid (.mov 7#4 0#4) = true ∧ 7 ≤ (7#4).toNat ∧ ∃ src, Instr.mov 7#4 0#4 = .mov 7#4 src) ∧
    (isValid (.ldi 13#4 0#4) = true ∧ 7 ≤ (13#4).toNat ∧ ∃ k, Instr.ldi 13#4 0#4 = .ldi 13#4 k) :=
  ⟨by decide, ⟨by decide, by decide, _, rfl⟩, by decide, by decide, _, rfl⟩
theorem runningOf {s : State} (hr : s.extReset = false) (hh : s.halted = false) (hp : s.rom = resetRom) :
    s.Running defaultConfig := ⟨hr, hh, romReady_generated rfl hp⟩
theorem witness_StepRunsFetchedInstruction : State.reset.Running defaultConfig ∧
    decode false (State.reset.imem.read State.reset.pc.toNat) = .mov 0#4 0#4 :=
  ⟨runningOf rfl rfl rfl, by decide⟩
theorem witness_PlacedWordRunsNext : Memory.wf (before 5 none none none none none none 0x6F).imem = true := by decide
theorem witness_ExternalResetWins : resetting.extReset = true := by decide
theorem witness_HaltedMachineIsIdle : stopped.extReset = false ∧ stopped.halted = true := by decide
theorem witness_UnusableRomPagesRefuse :
    (State.reset.extReset = false ∧ State.reset.halted = false ∧ bareRev2.revision = .two ∧
      suppliedTables bareRev2 = none) ∧
    (let s := programmedPage (Vector.replicate 256 0x01#8)
     s.extReset = false ∧ s.halted = false ∧ wired.revision = .one ∧
      s.romByte wired 1 0x85#8 ≠ romPage wired 0x85#8 1) :=
  ⟨⟨rfl, rfl, rfl, rfl⟩, rfl, rfl, rfl, fun h => absurd (congrArg Except.toOption h) (by decide)⟩
theorem witness_MovToWriteOnlyRegister : (13#4).toNat < 14 ∧ (6#4).toNat < 14 ∧ (0#4).toNat < 14 := by decide
theorem witness_TakenJumpThroughStorage : State.reset.regs[1] = 0#8 ∧ condSet.regs[1] ≠ 0#8 := by decide
theorem witness_TakenJumpThroughDerived :
    ((13#4, 0#8, []) : Reg4 × Byte × List (Fin 6)) ∈
      [(7#4, condSet.pc, ([] : List (Fin 6))), (9#4, if condSet.regs[1] = 0#8 then 0#8 else 1#8, [1]),
       (10#4, defaultConfig.shiftFn condSet, defaultConfig.shiftReads), (11#4, condSet.regs[4] + condSet.regs[5], [4, 5]),
       (13#4, 0#8, [])] ∧ condSet.regs[1] ≠ 0#8 := by simp [condSet]
theorem witness_TakenJumpThroughDerived_zero :
    ((7#4, State.reset.pc, []) : Reg4 × Byte × List (Fin 6)) ∈
      [(7#4, State.reset.pc, ([] : List (Fin 6))), (9#4, if State.reset.regs[1] = 0#8 then 0#8 else 1#8, [1]),
       (10#4, defaultConfig.shiftFn State.reset, defaultConfig.shiftReads),
       (11#4, State.reset.regs[4] + State.reset.regs[5], [4, 5]), (13#4, 0#8, [])] ∧ State.reset.regs[1] = 0#8 := by
  refine ⟨List.mem_cons_self, by decide⟩
theorem witness_TakenJumpThroughDerived_middle (s : State) (t : Reg4 × Byte × List (Fin 6))
    (h : t = (9#4, if s.regs[1] = 0#8 then 0#8 else 1#8, [1]) ∨
      t = (10#4, defaultConfig.shiftFn s, defaultConfig.shiftReads) ∨ t = (11#4, s.regs[4] + s.regs[5], [4, 5])) :
    t ∈ [(7#4, s.pc, ([] : List (Fin 6))), (9#4, if s.regs[1] = 0#8 then 0#8 else 1#8, [1]),
       (10#4, defaultConfig.shiftFn s, defaultConfig.shiftReads), (11#4, s.regs[4] + s.regs[5], [4, 5]), (13#4, 0#8, [])] := by
  rcases h with rfl | rfl | rfl <;> simp
theorem witness_TakenJumpToFreeTarget (s : State) (p : Reg4 × Byte)
    (h : p = (12#4, defaultConfig.draw s.draws) ∨ p = (6#4, defaultConfig.draw s.draws) ∨
      p = (8#4, defaultConfig.input s.draws)) :
    p ∈ [(12#4, defaultConfig.draw s.draws), (6#4, defaultConfig.draw s.draws), (8#4, defaultConfig.input s.draws)] ∧
    State.reset.regs[1] = 0#8 ∧ condSet.regs[1] ≠ 0#8 :=
  ⟨by rcases h with rfl | rfl | rfl <;> simp, by decide, by decide⟩
theorem witness_UntakenJumpAdvances : (13#4).toNat < 14 ∧ condSet.regs[1] ≠ 0#8 ∧ State.reset.regs[1] = 0#8 := by decide
theorem witness_DecodedInstructionsComplete : wellFormed (.mov 6#4 13#4) = true := by decide
theorem witness_IllFormedInstructionsRefused : defaultConfig.memcellMapped = false ∧ isValid (.jnz 14#4) = false ∧
    7 ≤ (7#4).toNat ∧ (13#4).toNat < 14 ∧ (0#4).toNat < 14 ∧ defaultConfig.revision = .one ∧
    isValid (.mov 13#4 0#4) = true := by decide
theorem witness_MappedMemoryCellRefused : mapped.memcellMapped = true ∧ (6#4).toNat < 7 ∧ (13#4).toNat < 14 ∧
    mapped.cond State.reset.regs[1] = false ∧ mapped.cond condSet.regs[1] = true ∧
    (3 : Fin 6) ∈ readSetOf mapped 3#4 ∧ (3 : Fin 6) ∈ targetSetOf mapped 3#4 ∧
    (let cfg := { mapped with jeFn := some fun s => s.regs[3], jeReads := [3], shiftFn := fun s => s.regs[3], shiftReads := [3] }
     cfg.memcellMapped = true ∧ (3 : Fin 6) ∈ jumpEnableReads cfg ∧ (3 : Fin 6) ∈ cfg.shiftReads) := by decide
theorem witness_MovAndLdiFrame : (∃ t, exec (.mov 0#4 1#4) condSet = .next t) ∧ (∃ t, exec (.ldi 6#4 1#4) faulty = .next t) ∧
    storeId 1 ≠ 0#4 ∧ faulty.faulted ≠ none := ⟨⟨_, rfl⟩, ⟨_, rfl⟩, by decide, by decide⟩
theorem witness_JumpFrame : (∃ t, exec (.jez 13#4) faulty = .next t) ∧ (∃ t, exec (.jnz 0#4) condSet = .next t) ∧
    (∃ t, exec (.jni 3#4) condSet = .next t) := ⟨⟨_, rfl⟩, ⟨_, rfl⟩, ⟨_, rfl⟩⟩
theorem witness_HltAndRstFrame : (∃ t, exec .hlt condSet = .next t) ∧ ∃ t, exec .rst condSet = .next t := ⟨⟨_, rfl⟩, ⟨_, rfl⟩⟩
theorem witness_ProgramMemoryIsReadOnly : (∃ t, stepIn defaultConfig (before 0 none none none none none none 0x85) = .next t) ∧
    State.reset.extReset = false ∧ State.reset.halted = false := ⟨⟨_, rfl⟩, by decide, by decide⟩
theorem witness_ProgramCounterSuccession : (∃ t, exec (.mov 0#4 13#4) condSet = .next t) ∧
    (∃ t, exec (.jez 13#4) State.reset = .next t) ∧ (∃ t, exec (.jnz 13#4) condSet = .next t) ∧
    (∃ t, exec (.jni 15#4) condSet = .next t) := ⟨⟨_, rfl⟩, ⟨_, rfl⟩, ⟨_, rfl⟩, ⟨_, rfl⟩⟩
theorem witness_HaltOnlyByHltEndedOnlyByReset :
    (∃ t, stepIn defaultConfig (before 0 none none none none none none 0x6F) = .next t ∧ t.halted = true) ∧
    (∃ t, stepIn defaultConfig { stopped with extReset := true } = .next t ∧ stopped.halted = true ∧ t.halted = false) :=
  ⟨⟨_, rfl, by decide⟩, ⟨_, rfl, by decide, by decide⟩⟩
theorem witness_RecordedFaultIsSticky : ∃ t, stepIn defaultConfig { faulty with extReset := true } = .next t ∧
    faulty.faulted = some (.unwrittenRegister 2) := ⟨_, rfl, rfl⟩
theorem witness_OnlyResetsForgetRegisters : ∃ t, stepIn defaultConfig (before 0 (some 1) none none none none none 0x7F) = .next t ∧
    (before 0 (some 1) none none none none none 0x7F).written[(0 : Fin 6)] = true ∧ t.written[(0 : Fin 6)] = false :=
  ⟨_, rfl, by decide, by decide⟩
theorem witness_StepKeepsInvariant : (before 0 none none none none none none 0x85).Inv ∧
    ∃ t, stepIn defaultConfig (before 0 none none none none none none 0x85) = .next t := ⟨⟨by decide, by decide⟩, _, rfl⟩
theorem witness_StrictStepFaultsOnUnwrittenReads : condSet.Running defaultConfig ∧ condSet.faulted = none ∧
    firstUnwritten condSet (instrReads defaultConfig condSet (decode false condSet.fetch)) = some (.unwrittenRegister 0) ∧
    (let s := before 0 (some 1) none none none none none 0x00
     s.Running defaultConfig ∧ s.faulted = none ∧
      firstUnwritten s (instrReads defaultConfig s (decode false s.fetch)) = none) :=
  ⟨runningOf rfl rfl rfl, rfl, by decide, runningOf rfl rfl rfl, rfl, by decide⟩
theorem witness_ResetValuesCannotBeSeen : DerivedReadsOnly localConfig ∧
    SameButUnwritten (before 0 (some 1) none none none none none 0x20)
      { before 0 (some 1) none none none none none 0x20 with regs := #v[1, 2, 3, 4, 5, 6] } ∧
    ∃ t, strict (stepIn localConfig (before 0 (some 1) none none none none none 0x20)) = .next t := by
  refine ⟨fun s s' _ => ⟨fun h => ?_, fun h => h 4 (by decide)⟩, ⟨rfl, by decide⟩, _, rfl⟩
  have h1 : s'.regs[conditionReg] = s.regs[conditionReg] := h conditionReg List.mem_cons_self
  exact congrArg (fun v => if defaultCond v then 0x01#8 else 0x00#8) h1
theorem witness_revisionOne : defaultConfig.revision = .one ∧ wired.revision = .one := ⟨rfl, rfl⟩
theorem witness_BusDiscipline :
    (∃ w, translateInstr defaultConfig (decode defaultConfig.hltRstSwap 0x2C#8) = .ok w ∧ asserted w (.oe 11) = true ∧
      asserted w (.ie 2) = true) ∧
    (∃ w, translateInstr defaultConfig (decode defaultConfig.hltRstSwap 0x6F#8) = .ok w) ∧
    decode defaultConfig.hltRstSwap 0x6F#8 = .hlt := ⟨⟨_, rfl, by decide, by decide⟩, ⟨_, rfl⟩, by decide⟩
theorem witness_WiredPinLevels : PinsInjective wired.pinOf ∧ wired.pinOf (.ie 0) = some 9 ∧ ∀ sig, wired.pinOf sig ≠ some 23 := by
  refine ⟨fun a b n ha hb => ?_, rfl, fun sig h => ?_⟩
  · have key : ∀ (sig : Signal) (n : Fin 24), twoPins sig = some n → (sig = .ie 0 ∧ n = 9) ∨ (sig = .imm ∧ n = 0) := by
      intro sig n h
      unfold twoPins at h
      split at h
      · cases h; exact .inl ⟨rfl, rfl⟩
      · cases h; exact .inr ⟨rfl, rfl⟩
      · cases h
    rcases key a n ha with ⟨rfl, rfl⟩ | ⟨rfl, rfl⟩ <;> rcases key b _ hb with ⟨rfl, h⟩ | ⟨rfl, h⟩ <;> first | rfl | cases h
  · change twoPins sig = some 23 at h
    unfold twoPins at h
    split at h <;> cases h
theorem witness_AtLeastThreeSignalsUnwired : PinsInjective wired.pinOf := witness_WiredPinLevels.1
theorem witness_GeneratedRomPage : 3 ≤ 9 ∧ 2 < 3 ∧ defaultConfig.revision = .one ∧ OutStream.fresh.room = none :=
  ⟨by decide, by decide, rfl, rfl⟩
theorem witness_RevisionTwoNeedsTables : bareRev2.revision = .two ∧ bareRev2.rev2 = none ∧ 0 < 3 ∧
    16 ≤ activeLowCount (revision1Tables defaultConfig) := ⟨rfl, rfl, by decide, by decide⟩
theorem witness_LettersLawful : LettersLawful defaultConfig ∧ isValid (.mov 13#4 0#4) = true :=
  ⟨⟨by decide, by decide⟩, by decide⟩
theorem witness_BlankLinesGiveNothing : (∀ b ∈ [spaceByte, 0x09#8], isWhitespace b = true) ∧ newlineByte ∉ text ['x', ' '] ∧
    newlineByte ∉ [0xC3#8] ∧ [0xC3#8].any (fun b => b.getLsbD 7) = true := by decide
theorem witness_CompileWritesAtMostOneByteALine :
    errorOf (compile defaultConfig ⟨text ['\n', 'f'], .eof⟩ OutStream.fresh).1 = some (2, .invalidOperation) := by decide
theorem witness_LoadedProgramIsInPlace : Memory.wf resetting.imem = true ∧ ∃ t, resetting.loadProgram [0x85, 0x6F] = .ok t :=
  ⟨by decide, _, rfl⟩
theorem witness_CanonicalMemoryIsUnique : Memory.wf [(0, 0x85#8), (255, 0x6F#8)] = true := by decide

end Sys2Proof.Tests
end

section
/-! SUPPORT. Reads of registers and what they report, when each instruction answers a next state and what it then records,
and the instruction a running machine runs: the facts that the statements on the state (10_state.md) rest on. -/

namespace Sys2Proof.Machine

/-! ## What reading registers reports -/

theorem State.st_eq_none_iff (s : State) (k : Fin 6) : s.st k = none ↔ s.written[k] = false := by
  simp [State.st]

theorem State.st_ne_none_iff (s : State) (k : Fin 6) : s.st k ≠ none ↔ s.written[k] = true := by
  simp [State.st]

/-- Reading registers reports nothing exactly when all of them are written. -/
theorem firstUnwritten_eq_none_iff (s : State) (ks : List (Fin 6)) :
    firstUnwritten s ks = none ↔ ∀ k ∈ ks, s.written[k] = true := by
  simp [firstUnwritten]

/-- Reading registers reports the first unwritten one. -/
theorem firstUnwritten_eq_some_iff (s : State) (ks : List (Fin 6)) (r : Fin 6) :
    firstUnwritten s ks = some (.unwrittenRegister r) ↔
      ∃ pre post, ks = pre ++ r :: post ∧ s.written[r] = false ∧ ∀ k ∈ pre, s.written[k] = true := by
  simp only [firstUnwritten, Option.map_eq_some_iff, Fault.unwrittenRegister.injEq, exists_eq_right,
    List.find?_eq_some_iff_append, Bool.not_eq_true']
  constructor
  · rintro ⟨hr, pre, post, hks, hpre⟩
    exact ⟨pre, post, hks, hr, by simpa using hpre⟩
  · rintro ⟨pre, post, hks, hr, hpre⟩
    exact ⟨hr, pre, post, hks, by simpa using hpre⟩

/-! ## Reading and driving a register by its id -/

theorem exists_regName {r : Reg4} (hr : isRegister r = true) : ∃ n, regName r = some n :=
  Option.isSome_iff_exists.mp ((isSome_regName r).trans hr)

theorem readReg_of_regName {r : Reg4} {n : RegName} (hn : regName r = some n) (cfg : Config) (earlier : List (Fin 6))
    (s : State) : readReg cfg earlier r s = readNamed cfg earlier n s := by
  simp only [readReg, hn]

theorem driveReg_of_regName {r : Reg4} {n : RegName} (hn : regName r = some n) (hne : n ≠ .difference) (cfg : Config)
    (earlier : List (Fin 6)) (s : State) : driveReg cfg earlier r s = readNamed cfg earlier n s := by
  cases n <;> simp_all [driveReg]

theorem driveReg_of_difference {r : Reg4} (hn : regName r = some .difference) (cfg : Config) (earlier : List (Fin 6))
    (s : State) : driveReg cfg earlier r s = .ok (cfg.draw s.draws, s.afterRead earlier true) := by
  simp only [driveReg, hn, drawValue_eq]

theorem readSetOf_of_regName {r : Reg4} {n : RegName} (hn : regName r = some n) (cfg : Config) :
    readSetOf cfg r = readSet cfg n := by
  simp only [readSetOf, hn]

theorem targetSetOf_of_regName {r : Reg4} {n : RegName} (hn : regName r = some n) (hne : n ≠ .difference) (cfg : Config) :
    targetSetOf cfg r = readSet cfg n := by
  cases n <;> simp_all [targetSetOf]

theorem targetSetOf_of_difference {r : Reg4} (hn : regName r = some .difference) (cfg : Config) :
    targetSetOf cfg r = [] := by
  simp only [targetSetOf, hn]

/-- The reads that use up a free value are those of ids 6 and 8 (R28, R33). -/
theorem readDraws_of_regName {r : Reg4} {n : RegName} (hn : regName r = some n) :
    readDraws n = decide (r = 6#4 ∨ r = 8#4) := by
  have h : ∀ r : Reg4, (regName r).all fun n => readDraws n == decide (r = 6#4 ∨ r = 8#4) := by decide
  simpa [hn] using h r

/-! ## When MOV, LDI and the jumps answer a next state -/

theorem movIn_eq_next_iff (cfg : Config) (dst src : Reg4) (s t : State) :
    movIn cfg dst src s = .next t ↔ isValid (.mov dst src) = true ∧
      ∃ v s1 s2, readReg cfg [] src s = .ok (v, s1) ∧ writeReg cfg dst v s1 = .ok s2 ∧ s2.advance = t := by
  unfold movIn
  constructor
  · intro h
    split at h
    · next hv =>
      split at h
      · cases h
      · next hr =>
        split at h
        · cases h
        · next hw => cases h; exact ⟨hv, _, _, _, hr, hw, rfl⟩
    · cases h
  · rintro ⟨hv, v, s1, s2, hr, hw, rfl⟩
    simp only [hv, hr, hw, if_true]

theorem ldiIn_eq_next_iff (cfg : Config) (dst : Reg4) (imm : Imm4) (s t : State) :
    ldiIn cfg dst imm s = .next t ↔ isValid (.ldi dst imm) = true ∧
      ∃ s1, writeReg cfg dst (immValue imm) s = .ok s1 ∧ s1.advance = t := by
  unfold ldiIn
  constructor
  · intro h
    split at h
    · next hv =>
      split at h
      · cases h
      · next hw => cases h; exact ⟨hv, _, hw, rfl⟩
    · cases h
  · rintro ⟨hv, s1, hw, rfl⟩
    simp only [hv, hw, if_true]

theorem jumpReg_eq_next_iff (cfg : Config) (jneg : Bool) (r : Reg4) (s t : State) :
    jumpReg cfg jneg r s = .next t ↔ isRegister r = true ∧
      ((taken cfg jneg s = true ∧ ∃ v s1, driveReg cfg [conditionReg] r s = .ok (v, s1) ∧ s1.jumpTo v = t) ∨
        (taken cfg jneg s = false ∧ (s.noteReads [conditionReg]).advance = t)) := by
  unfold jumpReg
  constructor
  · intro h
    split at h
    · next hv =>
      split at h
      · next ht =>
        split at h
        · cases h
        · next hd => cases h; exact ⟨hv, .inl ⟨ht, _, _, hd, rfl⟩⟩
      · next ht => cases h; exact ⟨hv, .inr ⟨by simpa using ht, rfl⟩⟩
    · cases h
  · rintro ⟨hv, ⟨ht, v, s1, hd, rfl⟩ | ⟨ht, rfl⟩⟩
    · simp only [hv, ht, hd, if_true]
    · simp [hv, ht]

/-! ## Well-formed instructions complete where id 3 is not mapped -/

/-- A read of a register records the first unwritten register it consults. -/
theorem readReg_unmapped {cfg : Config} (hm : cfg.memcellMapped = false) {r : Reg4} (hr : isRegister r = true)
    (earlier : List (Fin 6)) (s : State) :
    ∃ v s1, readReg cfg earlier r s = .ok (v, s1) ∧
      s1.faulted = s.faulted.or (firstUnwritten s (earlier ++ readSetOf cfg r)) := by
  obtain ⟨n, hn⟩ := exists_regName hr
  rw [readReg_of_regName hn, readSetOf_of_regName hn]
  exact ⟨_, _, readNamed_unmapped hm earlier n s, rfl⟩

/-- A jump target driven onto the bus records the first unwritten register it consults. -/
theorem driveReg_unmapped {cfg : Config} (hm : cfg.memcellMapped = false) {r : Reg4} (hr : isRegister r = true)
    (earlier : List (Fin 6)) (s : State) :
    ∃ v s1, driveReg cfg earlier r s = .ok (v, s1) ∧
      s1.faulted = s.faulted.or (firstUnwritten s (earlier ++ targetSetOf cfg r)) := by
  obtain ⟨n, hn⟩ := exists_regName hr
  by_cases hne : n = .difference
  · subst hne
    rw [driveReg_of_difference hn, targetSetOf_of_difference hn, List.append_nil]
    exact ⟨_, _, rfl, rfl⟩
  · rw [driveReg_of_regName hn hne, targetSetOf_of_regName hn hne]
    exact ⟨_, _, readNamed_unmapped hm earlier n s, rfl⟩

/-- A write to a write-capable register answers. -/
theorem writeReg_unmapped {cfg : Config} (hm : cfg.memcellMapped = false) {r : Reg4} (hr : isWriteCapable r = true)
    (v : Byte) (s : State) : ∃ s1, writeReg cfg r v s = .ok s1 := by
  rcases regName_of_writeCapable hr with ⟨k, hk⟩ | hk
  · exact ⟨s.setStore k v, by simp [writeReg, hk, hm]⟩
  · exact ⟨s, by simp only [writeReg, hk]⟩

/-- A write records nothing. -/
theorem writeReg_faulted {cfg : Config} {r : Reg4} {v : Byte} {s s1 : State} (h : writeReg cfg r v s = .ok s1) :
    s1.faulted = s.faulted := by
  rcases writeReg_ok h with ⟨k, -, rfl⟩ | ⟨-, rfl⟩ <;> rfl

/-- A jump through a register answers, and records the first unwritten register that it reads. -/
theorem jumpReg_unmapped {cfg : Config} (hm : cfg.memcellMapped = false) {r : Reg4} (hr : isRegister r = true)
    (jneg : Bool) (s : State) :
    ∃ t, jumpReg cfg jneg r s = .next t ∧ t.faulted = s.faulted.or (firstUnwritten s
      (if taken cfg jneg s then conditionReg :: targetSetOf cfg r else [conditionReg])) := by
  cases ht : taken cfg jneg s with
  | true =>
    obtain ⟨v, s1, hd, hf⟩ := driveReg_unmapped hm hr [conditionReg] s
    exact ⟨s1.jumpTo v, (jumpReg_eq_next_iff ..).mpr ⟨hr, .inl ⟨ht, v, s1, hd, rfl⟩⟩, hf⟩
  | false => exact ⟨_, (jumpReg_eq_next_iff ..).mpr ⟨hr, .inr ⟨ht, rfl⟩⟩, rfl⟩

/-- A well-formed instruction answers a next state, and records the first unwritten register that it reads. -/
theorem execIn_wellFormed {cfg : Config} (hm : cfg.memcellMapped = false) {i : Instr} (hi : wellFormed i = true)
    (s : State) : ∃ t, execIn cfg i s = .next t ∧ t.faulted = s.faulted.or (firstUnwritten s (instrReads cfg s i)) := by
  obtain ⟨hvalid, hdst⟩ := Bool.and_eq_true_iff.mp hi
  cases i with
  | mov dst src =>
    have hsrc : isRegister src = true := (Bool.and_eq_true_iff.mp hvalid).2
    obtain ⟨v, s1, hr, hf⟩ := readReg_unmapped hm hsrc [] s
    obtain ⟨s2, hw⟩ := writeReg_unmapped hm hdst v s1
    exact ⟨s2.advance, (movIn_eq_next_iff ..).mpr ⟨hvalid, v, s1, s2, hr, hw, rfl⟩, (writeReg_faulted hw).trans hf⟩
  | ldi dst imm =>
    obtain ⟨s1, hw⟩ := writeReg_unmapped hm hdst (immValue imm) s
    refine ⟨s1.advance, (ldiIn_eq_next_iff ..).mpr ⟨hvalid, s1, hw, rfl⟩, ?_⟩
    simpa [instrReads] using writeReg_faulted hw
  | jez r => exact jumpReg_unmapped hm hvalid true s
  | jnz r => exact jumpReg_unmapped hm hvalid false s
  | jni imm =>
    simp only [execIn, jniIn, instrReads]
    split
    · exact ⟨_, rfl, rfl⟩
    · exact ⟨_, rfl, rfl⟩
  | hlt => exact ⟨s.halt, rfl, by simp [instrReads]⟩
  | rst => exact ⟨s.takeReset, rfl, by simp [instrReads]⟩

/-! ## The instruction of a running machine -/

/-- R82, checked on each of the 256 bytes. -/
theorem wellFormed_decode (swap : Bool) (b : Byte) : wellFormed (decode swap b) = true := by
  revert swap b; decide

/-- A machine cycle that fetches runs the decoded byte. -/
theorem stepIn_of_fetching {cfg : Config} {s : State} (hreset : s.extReset = false) (hhalt : s.halted = false)
    (hrom : romRefusal cfg s = none) : stepIn cfg s = execIn cfg (decode cfg.hltRstSwap s.fetch) s := by
  have hvalid := (Bool.and_eq_true_iff.mp (wellFormed_decode cfg.hltRstSwap s.fetch)).1
  simp [stepIn, cycle, hreset, hhalt, hrom, runByte, decodeChecked, hvalid]

/-- A running machine's step runs the decoded byte. -/
theorem stepIn_of_running {cfg : Config} {s : State} (h : s.Running cfg) :
    stepIn cfg s = execIn cfg (decode cfg.hltRstSwap s.fetch) s := by
  obtain ⟨hreset, hhalt, hrom⟩ := h
  exact stepIn_of_fetching hreset hhalt ((romRefusal_eq_none_iff cfg s).mpr hrom)

theorem strict_next_of_faulted_none {t : State} (h : t.faulted = none) : strict (.next t) = .next t := by
  simp only [strict, h]

theorem strict_next_of_faulted_some {t : State} {f : Fault} (h : t.faulted = some f) : strict (.next t) = .fault f := by
  simp only [strict, h]

/-- The strict semantics answers a next state exactly where the outcome has no fault recorded. -/
theorem strict_eq_next_iff (o : Result) (t : State) : strict o = .next t ↔ o = .next t ∧ t.faulted = none := by
  constructor
  · intro h
    unfold strict at h
    split at h
    · split at h
      · next hf => cases h; exact ⟨rfl, hf⟩
      · cases h
    · cases h
    · cases h
  · rintro ⟨rfl, hf⟩
    exact strict_next_of_faulted_none hf

/-! ## Instruction terms that no byte decodes to -/

theorem execIn_invalid (cfg : Config) (s : State) {i : Instr} (hi : isValid i = false) :
    execIn cfg i s = .refused .invalidInstruction := by
  cases i with
  | mov dst src => simp only [execIn, movIn, hi]; rfl
  | ldi dst imm => simp only [execIn, ldiIn, hi]; rfl
  | jez r => simp only [execIn, jezIn, jumpReg, show isRegister r = false from hi]; rfl
  | jnz r => simp only [execIn, jnzIn, jumpReg, show isRegister r = false from hi]; rfl
  | jni imm => cases hi
  | hlt => cases hi
  | rst => cases hi

theorem writeReg_readOnly {r : Reg4} (hlo : 7 ≤ r.toNat) (hhi : r.toNat < 14) (cfg : Config) (v : Byte) (s : State) :
    writeReg cfg r v s = .error (.readOnlyDestination r) := by
  have hread := regName_readOnly (r := r) (by simpa [isRegister] using hhi) (by simpa [isWriteCapable] using hlo)
  rcases hread with hn | hn | hn | hn | hn | hn | hn <;> simp only [writeReg, hn]

theorem translateInstr_revisionOne {cfg : Config} (h : cfg.revision = .one) {i : Instr} (hi : isValid i = true) :
    translateInstr cfg i = .ok (meet (controlWord i) everySignal) := by
  simp [translateInstr, hi, revisionTables, h, revision1Tables]

theorem translateInstr_invalid (cfg : Config) {i : Instr} (hi : isValid i = false) :
    translateInstr cfg i = .error .refusedInvalid := by
  simp [translateInstr, hi]

/-! ## Where the program counter goes -/

/-- A write leaves the program counter. -/
theorem writeReg_pc {cfg : Config} {r : Reg4} {v : Byte} {s s1 : State} (h : writeReg cfg r v s = .ok s1) :
    s1.pc = s.pc := by
  rcases writeReg_ok h with ⟨k, -, rfl⟩ | ⟨-, rfl⟩ <;> rfl

/-- A read leaves the program counter. -/
theorem readReg_pc {cfg : Config} {earlier : List (Fin 6)} {r : Reg4} {s s1 : State} {v : Byte}
    (h : readReg cfg earlier r s = .ok (v, s1)) : s1.pc = s.pc := by
  obtain ⟨n, -, -, rfl⟩ := readReg_ok h
  rfl

/-- At the spec's defaults JEZ jumps where the condition register is zero (R190). -/
theorem taken_default_jez (s : State) : taken defaultConfig true s = decide (s.regs[1] = 0#8) := by
  by_cases h : s.regs[1] = 0#8 <;> simp [taken, conditionReg, h]

/-- At the spec's defaults JNZ and JNI jump where the condition register is not zero (R190). -/
theorem taken_default_jnz (s : State) : taken defaultConfig false s = !decide (s.regs[1] = 0#8) := by
  by_cases h : s.regs[1] = 0#8 <;> simp [taken, conditionReg, h]

theorem immValue_eq_ofNat (k : Imm4) : immValue k = BitVec.ofNat 8 k.toNat := by
  simp [immValue, BitVec.ofNat_toNat]

/-- A jump through a register goes to the driven value where it is taken, and past itself where it is not. -/
theorem jumpReg_pc {cfg : Config} {jneg : Bool} {r : Reg4} {s t : State} (h : jumpReg cfg jneg r s = .next t) :
    if taken cfg jneg s then ∃ u, driveReg cfg [conditionReg] r s = .ok (t.pc, u) else t.pc = s.pc + 1#8 := by
  rcases jumpReg_next h with ⟨ht, v, s1, hd, rfl⟩ | ⟨ht, rfl⟩
  · rw [if_pos ht]; exact ⟨s1, hd⟩
  · simp [ht]

end Sys2Proof.Machine
end

section
/-! PROOF. The statements on unwritten registers, refused terms, the program counter and ids 6 and 13. -/

namespace Sys2Proof.Machine

/-- Settles O27: `is_valid` is checked before any operand, and a write refuses ids 7 to 13 once the source has been read. -/
theorem illFormedInstructionsRefused : Obligations.IllFormedInstructionsRefused := by
  intro cfg s hm
  refine ⟨fun i hi => execIn_invalid cfg s hi, fun d src hlo hhi hsrc => ?_, fun d k hlo hhi => ?_,
    fun i hone => ⟨fun hi => ⟨_, translateInstr_revisionOne hone hi⟩, fun hi => translateInstr_invalid cfg hi⟩⟩
  · have hvalid : isValid (.mov d src) = true := by simp [isValid, isRegister, hhi, hsrc]
    obtain ⟨v, s1, hr, -⟩ := readReg_unmapped hm (r := src) (by simpa [isRegister] using hsrc) [] s
    simp only [execIn, movIn, hvalid, hr, writeReg_readOnly hlo hhi, if_true]
  · have hvalid : isValid (.ldi d k) = true := by simpa [isValid, isRegister] using hhi
    simp only [execIn, ldiIn, hvalid, writeReg_readOnly hlo hhi, if_true]

/-- Settles O33: MOV and LDI by their writes' frame, the jumps by whether they are taken. -/
theorem programCounterSuccession : Obligations.ProgramCounterSuccession := by
  intro i s t h
  rw [exec_eq_execIn] at h
  cases i with
  | mov dst src =>
    obtain ⟨-, v, s1, s2, hr, hw, rfl⟩ := (movIn_eq_next_iff ..).mp h
    simp [writeReg_pc hw, readReg_pc hr]
  | ldi dst imm =>
    obtain ⟨-, s1, hw, rfl⟩ := (ldiIn_eq_next_iff ..).mp h
    simp [writeReg_pc hw]
  | jez r => simpa [taken_default_jez, conditionReg] using jumpReg_pc h
  | jnz r => simpa [taken_default_jnz, conditionReg] using jumpReg_pc h
  | jni k =>
    rcases jniIn_next h with ⟨ht, rfl⟩ | ⟨ht, rfl⟩
    · simp_all [taken_default_jnz, immValue_eq_ofNat]
    · simp_all [taken_default_jnz]
  | hlt => cases h; rfl
  | rst => cases h; rfl

/-- Settles O40, by the library's account of `List.find?`. -/
theorem readsReportFirstUnwritten : Obligations.ReadsReportFirstUnwritten := by
  intro s ks r
  simp only [State.st_eq_none_iff, State.st_ne_none_iff]
  exact ⟨firstUnwritten_eq_some_iff s ks r, firstUnwritten_eq_none_iff s ks⟩

/-- Settles O41: what the step records is what its instruction's reads report. -/
theorem strictStepFaultsOnUnwrittenReads : Obligations.StrictStepFaultsOnUnwrittenReads := by
  intro s hrun hnone
  obtain ⟨t, hexec, hfault⟩ := execIn_wellFormed defaultConfig_memcellMapped (wellFormed_decode false s.fetch) s
  have hstep : step s = .next t := (step_eq_stepIn s).trans ((stepIn_of_running hrun).trans hexec)
  rw [hnone, Option.none_or] at hfault
  split
  · next f hf => simpa [strictStep, hstep] using strict_next_of_faulted_some (hfault.trans hf)
  · next hf =>
    have ht := hfault.trans hf
    exact ⟨t, by simpa [strictStep, hstep] using strict_next_of_faulted_none ht, hstep, ht⟩

/-- Settles O16: the source is read, and the write to id 6 leaves the state as the read left it. -/
theorem movToWriteOnlyRegister : Obligations.MovToWriteOnlyRegister := by
  intro src s hsrc
  have hvalid : isValid (.mov 6#4 src) = true := by simpa [isValid, isRegister] using hsrc
  obtain ⟨n, hn⟩ := exists_regName (r := src) (by simpa [isRegister] using hsrc)
  have hread : readReg defaultConfig [] src s =
      .ok (readValue defaultConfig s n, s.afterRead (readSet defaultConfig n) (readDraws n)) :=
    (readReg_of_regName hn ..).trans (readNamed_default [] n s)
  rw [exec_eq_execIn, execIn, (movIn_eq_next_iff ..).mpr ⟨hvalid, _, _, _, hread, rfl, rfl⟩]
  simp [State.advance, State.afterRead, readSetOf_of_regName hn, readDraws_of_regName hn]

/-- Settles O17: a read of id 13 consults no register, so that nothing refuses it. -/
theorem hardWiredZeroReadsZero : Obligations.HardWiredZeroReadsZero := by
  intro cfg earlier s
  have hread : readNamed cfg earlier .zero s = .ok (0#8, s.afterRead (earlier ++ []) false) := by
    simp [readNamed_eq, readSet, readValue, readDraws]
  constructor
  · exact ⟨_, (readReg_of_regName regName_zero cfg earlier s).trans hread⟩
  · exact ⟨_, (driveReg_of_regName regName_zero (by decide) cfg earlier s).trans hread⟩

end Sys2Proof.Machine
end

section
/-! PROOF. The values of unwritten registers cannot be seen: two states that differ in such values only run alike until a fault
is recorded. A value that an instruction consults is reported where it is unwritten, so a cycle that records no fault has
consulted written registers only, and those agree. -/

namespace Sys2Proof.Machine

/-! ## Two states that differ in the values of unwritten registers only -/

section
variable {cfg : Config} {s s' : State}

theorem SameButUnwritten.exists_regs (h : SameButUnwritten s s') :
    ∃ rs, s' = { s with regs := rs } ∧ ∀ k : Fin 6, s.written[k] = true → rs[k] = s.regs[k] :=
  ⟨s'.regs, h.1, h.2⟩

theorem SameButUnwritten.pc_eq (h : SameButUnwritten s s') : s'.pc = s.pc := (congrArg State.pc h.1 :)

theorem SameButUnwritten.draws_eq (h : SameButUnwritten s s') : s'.draws = s.draws := (congrArg State.draws h.1 :)

theorem SameButUnwritten.halted_eq (h : SameButUnwritten s s') : s'.halted = s.halted := (congrArg State.halted h.1 :)

theorem SameButUnwritten.extReset_eq (h : SameButUnwritten s s') : s'.extReset = s.extReset :=
  (congrArg State.extReset h.1 :)

theorem SameButUnwritten.faulted_eq (h : SameButUnwritten s s') : s'.faulted = s.faulted := (congrArg State.faulted h.1 :)

theorem SameButUnwritten.fetch_eq (h : SameButUnwritten s s') : s'.fetch = s.fetch := (congrArg State.fetch h.1 :)

theorem SameButUnwritten.romRefusal_eq (h : SameButUnwritten s s') : romRefusal cfg s' = romRefusal cfg s :=
  (congrArg (romRefusal cfg) h.1 :)

theorem SameButUnwritten.advance (h : SameButUnwritten s s') : SameButUnwritten s.advance s'.advance := by
  obtain ⟨rs, rfl, hrs⟩ := h.exists_regs
  exact ⟨rfl, hrs⟩

theorem SameButUnwritten.jumpTo (h : SameButUnwritten s s') (v : Byte) : SameButUnwritten (s.jumpTo v) (s'.jumpTo v) := by
  obtain ⟨rs, rfl, hrs⟩ := h.exists_regs
  exact ⟨rfl, hrs⟩

theorem SameButUnwritten.halt (h : SameButUnwritten s s') : SameButUnwritten s.halt s'.halt := by
  obtain ⟨rs, rfl, hrs⟩ := h.exists_regs
  exact ⟨rfl, hrs⟩

theorem SameButUnwritten.noteReads (h : SameButUnwritten s s') (ks : List (Fin 6)) :
    SameButUnwritten (s.noteReads ks) (s'.noteReads ks) := by
  obtain ⟨rs, rfl, hrs⟩ := h.exists_regs
  exact ⟨rfl, hrs⟩

theorem SameButUnwritten.afterRead (h : SameButUnwritten s s') (ks : List (Fin 6)) (drew : Bool) :
    SameButUnwritten (s.afterRead ks drew) (s'.afterRead ks drew) := by
  obtain ⟨rs, rfl, hrs⟩ := h.exists_regs
  exact ⟨rfl, hrs⟩

/-- The register written holds one value in both states afterwards. -/
theorem SameButUnwritten.setStore (h : SameButUnwritten s s') (k : Fin 6) (v : Byte) :
    SameButUnwritten (s.setStore k v) (s'.setStore k v) := by
  obtain ⟨rs, rfl, hrs⟩ := h.exists_regs
  refine ⟨rfl, fun j hj => ?_⟩
  simp only [State.setStore_regs, State.setStore_written, Fin.getElem_fin, Vector.getElem_set] at hj ⊢
  split
  · rfl
  · next hne => exact hrs j (by simpa [hne] using hj)

/-- A reset leaves no register's value. -/
theorem SameButUnwritten.takeReset (h : SameButUnwritten s s') : SameButUnwritten s.takeReset s'.takeReset := by
  obtain ⟨rs, rfl, -⟩ := h.exists_regs
  exact ⟨rfl, fun _ _ => rfl⟩

theorem SameButUnwritten.takeExternalReset (h : SameButUnwritten s s') :
    SameButUnwritten s.takeExternalReset s'.takeExternalReset := by
  obtain ⟨rs, rfl, -⟩ := h.exists_regs
  exact ⟨rfl, fun _ _ => rfl⟩

/-! ### A read that reports nothing answers one value in both states -/

/-- If no fault is recorded after reading registers, all of them are written. -/
theorem written_of_report_none {ks : List (Fin 6)} (h : s.faulted.or (firstUnwritten s ks) = none) :
    ∀ k ∈ ks, s.written[k] = true :=
  (firstUnwritten_eq_none_iff s ks).mp (Option.or_eq_none_iff.mp h).2

theorem SameButUnwritten.readValue_eq (hcfg : DerivedReadsOnly cfg) (h : SameButUnwritten s s') {n : RegName}
    (hw : ∀ k ∈ readSet cfg n, s.written[k] = true) : readValue cfg s' n = readValue cfg s n := by
  obtain ⟨hje, hshift⟩ := hcfg s s' h.1
  have hval : ∀ k ∈ readSet cfg n, s'.regs[k] = s.regs[k] := fun k hk => h.2 k (hw k hk)
  cases n with
  | store k => exact hval k List.mem_cons_self
  | sink => exact congrArg cfg.draw h.draws_eq
  | pc => simp only [readValue, h.pc_eq]
  | input => exact congrArg cfg.input h.draws_eq
  | jumpEnable => exact hje hval
  | shift => exact hshift hval
  | sum => exact congrArg₂ cfg.aluAdd (hval 4 (by simp [readSet])) (hval 5 (by simp [readSet]))
  | difference => exact congrArg₂ cfg.aluSub (hval 4 (by simp [readSet])) (hval 5 (by simp [readSet]))
  | zero => rfl

theorem SameButUnwritten.exists_readNamed (hcfg : DerivedReadsOnly cfg) (h : SameButUnwritten s s') {earlier : List (Fin 6)}
    {n : RegName} {v : Byte} {s1 : State} (hr : readNamed cfg earlier n s = .ok (v, s1)) (hf : s1.faulted = none) :
    ∃ s1', readNamed cfg earlier n s' = .ok (v, s1') ∧ SameButUnwritten s1 s1' := by
  rw [readNamed_eq] at hr ⊢
  split at hr
  · cases hr
  · next hm =>
    cases hr
    have hw : ∀ k ∈ readSet cfg n, s.written[k] = true := fun k hk =>
      written_of_report_none hf k (List.mem_append_right earlier hk)
    rw [if_neg hm, h.readValue_eq hcfg hw]
    exact ⟨_, rfl, h.afterRead _ _⟩

theorem SameButUnwritten.exists_readReg (hcfg : DerivedReadsOnly cfg) (h : SameButUnwritten s s') {earlier : List (Fin 6)}
    {r : Reg4} {v : Byte} {s1 : State} (hr : readReg cfg earlier r s = .ok (v, s1)) (hf : s1.faulted = none) :
    ∃ s1', readReg cfg earlier r s' = .ok (v, s1') ∧ SameButUnwritten s1 s1' := by
  obtain ⟨n, hn, -, -⟩ := readReg_ok hr
  rw [readReg_of_regName hn] at hr ⊢
  exact h.exists_readNamed hcfg hr hf

theorem SameButUnwritten.exists_driveReg (hcfg : DerivedReadsOnly cfg) (h : SameButUnwritten s s') {earlier : List (Fin 6)}
    {r : Reg4} {v : Byte} {s1 : State} (hd : driveReg cfg earlier r s = .ok (v, s1)) (hf : s1.faulted = none) :
    ∃ s1', driveReg cfg earlier r s' = .ok (v, s1') ∧ SameButUnwritten s1 s1' := by
  rcases driveReg_ok hd with ⟨hn, rfl, rfl⟩ | ⟨n, hne, hn, -, -⟩
  · rw [driveReg_of_difference hn, h.draws_eq]
    exact ⟨_, rfl, h.afterRead _ _⟩
  · rw [driveReg_of_regName hn hne] at hd ⊢
    exact h.exists_readNamed hcfg hd hf

/-- A write of one value keeps the two states the same but for the values of unwritten registers. -/
theorem SameButUnwritten.exists_writeReg (h : SameButUnwritten s s') {r : Reg4} {v : Byte} {s1 : State}
    (hw : writeReg cfg r v s = .ok s1) :
    ∃ s1', writeReg cfg r v s' = .ok s1' ∧ SameButUnwritten s1 s1' := by
  rcases writeReg_ok hw with ⟨k, hk, rfl⟩ | ⟨hk, rfl⟩
  · simp only [writeReg, hk] at hw ⊢
    split at hw
    · cases hw
    · next hm => exact ⟨_, if_neg hm, h.setStore k v⟩
  · exact ⟨s', by simp only [writeReg, hk], h⟩

/-- A jump is decided by the condition register alone, so that both states decide alike where it is written (R190). -/
theorem SameButUnwritten.taken_eq (h : SameButUnwritten s s') (hw : s.written[conditionReg] = true) (jneg : Bool) :
    taken cfg jneg s' = taken cfg jneg s :=
  congrArg (fun v => cfg.cond v ^^ jneg) (h.2 conditionReg hw)

end

/-! ### An instruction that records no fault runs alike in both states -/

/-- What runs from one state to a next state without a fault runs from every state that is the same but for the values of
unwritten registers, and the next states are again the same but for such values. -/
def HidesUnwritten (run : State → Result) : Prop :=
  ∀ s s' t : State, SameButUnwritten s s' → run s = .next t → t.faulted = none →
    ∃ t', run s' = .next t' ∧ SameButUnwritten t t'

section
variable {cfg : Config}

theorem movIn_hidesUnwritten (hcfg : DerivedReadsOnly cfg) (dst src : Reg4) : HidesUnwritten (movIn cfg dst src) := by
  intro s s' t h hrun hf
  obtain ⟨hvalid, v, s1, s2, hr, hw, rfl⟩ := (movIn_eq_next_iff ..).mp hrun
  obtain ⟨s1', hr', h1⟩ := h.exists_readReg hcfg hr ((writeReg_faulted hw).symm.trans hf)
  obtain ⟨s2', hw', h2⟩ := h1.exists_writeReg hw
  exact ⟨_, (movIn_eq_next_iff ..).mpr ⟨hvalid, v, s1', s2', hr', hw', rfl⟩, h2.advance⟩

theorem ldiIn_hidesUnwritten (dst : Reg4) (imm : Imm4) : HidesUnwritten (ldiIn cfg dst imm) := by
  intro s s' t h hrun _
  obtain ⟨hvalid, s1, hw, rfl⟩ := (ldiIn_eq_next_iff ..).mp hrun
  obtain ⟨s1', hw', h1⟩ := h.exists_writeReg hw
  exact ⟨_, (ldiIn_eq_next_iff ..).mpr ⟨hvalid, s1', hw', rfl⟩, h1.advance⟩

/-- If no fault is recorded after a bus drive, the registers read before it by the same instruction are written. -/
theorem driveReg_written_earlier {earlier : List (Fin 6)} {r : Reg4} {v : Byte} {s s1 : State}
    (hd : driveReg cfg earlier r s = .ok (v, s1)) (hf : s1.faulted = none) : ∀ k ∈ earlier, s.written[k] = true := by
  rcases driveReg_ok hd with ⟨-, -, rfl⟩ | ⟨n, -, -, -, rfl⟩
  · exact written_of_report_none hf
  · exact fun k hk => written_of_report_none hf k (List.mem_append_left _ hk)

theorem jumpReg_hidesUnwritten (hcfg : DerivedReadsOnly cfg) (jneg : Bool) (r : Reg4) :
    HidesUnwritten (jumpReg cfg jneg r) := by
  intro s s' t h hrun hf
  obtain ⟨hvalid, ⟨ht, v, s1, hd, rfl⟩ | ⟨ht, rfl⟩⟩ := (jumpReg_eq_next_iff ..).mp hrun
  · have hcond := driveReg_written_earlier hd hf conditionReg List.mem_cons_self
    obtain ⟨s1', hd', h1⟩ := h.exists_driveReg hcfg hd hf
    have ht' := (h.taken_eq hcond jneg).trans ht
    exact ⟨_, (jumpReg_eq_next_iff ..).mpr ⟨hvalid, .inl ⟨ht', v, s1', hd', rfl⟩⟩, h1.jumpTo v⟩
  · have hcond := written_of_report_none hf conditionReg List.mem_cons_self
    have ht' := (h.taken_eq hcond jneg).trans ht
    exact ⟨_, (jumpReg_eq_next_iff ..).mpr ⟨hvalid, .inr ⟨ht', rfl⟩⟩, (h.noteReads _).advance⟩

theorem jniIn_hidesUnwritten (imm : Imm4) : HidesUnwritten (jniIn cfg imm) := by
  intro s s' t h hrun hf
  have hreads : (s.noteReads [conditionReg]).faulted = none := by
    rcases jniIn_next hrun with ⟨-, rfl⟩ | ⟨-, rfl⟩ <;> exact hf
  have htaken := h.taken_eq (cfg := cfg) (written_of_report_none hreads conditionReg List.mem_cons_self) false
  rcases jniIn_next hrun with ⟨ht, rfl⟩ | ⟨ht, rfl⟩
  · exact ⟨_, by simp only [jniIn, htaken, ht, if_true], (h.noteReads _).jumpTo _⟩
  · exact ⟨_, by simp [jniIn, htaken, ht], (h.noteReads _).advance⟩

theorem execIn_hidesUnwritten (hcfg : DerivedReadsOnly cfg) (i : Instr) : HidesUnwritten (execIn cfg i) := by
  cases i with
  | mov dst src => exact movIn_hidesUnwritten hcfg dst src
  | ldi dst imm => exact ldiIn_hidesUnwritten dst imm
  | jez r => exact jumpReg_hidesUnwritten hcfg true r
  | jnz r => exact jumpReg_hidesUnwritten hcfg false r
  | jni imm => exact jniIn_hidesUnwritten imm
  | hlt => rintro s s' t h ⟨⟩ -; exact ⟨s'.halt, rfl, h.halt⟩
  | rst => rintro s s' t h ⟨⟩ -; exact ⟨s'.takeReset, rfl, h.takeReset⟩

theorem stepIn_hidesUnwritten (hcfg : DerivedReadsOnly cfg) : HidesUnwritten (stepIn cfg) := by
  intro s s' t h hrun hf
  rcases cycle_next hrun with ⟨hreset, rfl⟩ | ⟨hreset, hhalt, rfl⟩ | ⟨hreset, hhalt, hrom, hexec⟩
  · exact ⟨s'.takeExternalReset, by simp [stepIn, cycle, h.extReset_eq, hreset], h.takeExternalReset⟩
  · exact ⟨s', by simp [stepIn, cycle, h.extReset_eq, hreset, h.halted_eq, hhalt], h⟩
  · rw [stepIn_of_fetching (h.extReset_eq.trans hreset) (h.halted_eq.trans hhalt) (h.romRefusal_eq.trans hrom), h.fetch_eq]
    exact execIn_hidesUnwritten hcfg _ s s' t h hexec hf

end

/-- Settles O42: the strict cycle answers a next state exactly where the cycle records no fault, and such a cycle reads
written registers only. -/
theorem resetValuesCannotBeSeen : Obligations.ResetValuesCannotBeSeen := by
  intro cfg s s' t hcfg h hstrict
  obtain ⟨hrun, hf⟩ := (strict_eq_next_iff ..).mp hstrict
  obtain ⟨t', hrun', h'⟩ := stepIn_hidesUnwritten hcfg s s' t h hrun hf
  exact ⟨t', (strict_eq_next_iff ..).mpr ⟨hrun', h'.faulted_eq.trans hf⟩, h'⟩

end Sys2Proof.Machine
end

section
/-! SUPPORT. Program memory over a program load and over every step, and what is refused where id 3 is mapped: the facts that
the statements on memory (20_memory.md) rest on. -/

namespace Sys2Proof.Machine

/-! ## Program memory after a load -/

/-- After bytes are written from `a` on, an address reads as its byte of them, or as before where it has none. -/
theorem Memory.read_writeBytes {m : Memory} (h : Memory.wf m = true) (vs : List Byte) {a : Nat}
    (ha : a + vs.length ≤ 256) (b : Nat) :
    Memory.read (Memory.writeBytes m a vs) b =
      if b < a then Memory.read m b else vs[b - a]?.getD (Memory.read m b) := by
  induction vs generalizing m a with
  | nil => simp [Memory.writeBytes]
  | cons v vs ih =>
    rw [List.length_cons] at ha
    have hlater := ih (Memory.wf_write h (by omega : a < 256) v) (by omega : a + 1 + vs.length ≤ 256)
    rw [Memory.writeBytes, hlater, Memory.read_write h]
    rcases Nat.lt_trichotomy b a with hlt | rfl | hgt
    · rw [if_pos (by omega), if_pos hlt, if_neg (by omega)]
    · simp
    · have hidx : b - a = b - (a + 1) + 1 := by omega
      rw [if_neg (by omega), if_neg (by omega), if_neg (by omega), hidx, List.getElem?_cons_succ]

/-- A load that succeeds has put a file that fits into program memory there, and done nothing else. -/
theorem State.loadProgram_ok {s t : State} {file : List Byte} (h : s.loadProgram file = .ok t) :
    file.length ≤ 256 ∧ t = { s with imem := s.imem.writeBytes 0 file } := by
  unfold State.loadProgram at h
  split at h
  · split at h
    · next hlen => cases h; exact ⟨hlen, rfl⟩
    · cases h
  · cases h

/-- The host may not write while the machine is neither held in reset nor halted. -/
theorem State.hostMayWrite_eq_false {s : State} (hreset : s.extReset = false) (hhalt : s.halted = false) :
    s.hostMayWrite = false := by
  simp [State.hostMayWrite, hreset, hhalt]

/-! ## No instruction writes program memory or a ROM page -/

/-- Program memory and the ROM pages are the same in both states. -/
def SameProgram (s t : State) : Prop := t.imem = s.imem ∧ t.rom = s.rom

theorem movIn_sameProgram {cfg : Config} {dst src : Reg4} {s t : State} (h : movIn cfg dst src s = .next t) :
    SameProgram s t := by
  obtain ⟨n, -, ⟨k, -, rfl⟩ | ⟨-, rfl⟩⟩ := movIn_next h
  · exact ⟨rfl, rfl⟩
  · exact ⟨rfl, rfl⟩

theorem ldiIn_sameProgram {cfg : Config} {dst : Reg4} {imm : Imm4} {s t : State} (h : ldiIn cfg dst imm s = .next t) :
    SameProgram s t := by
  obtain ⟨k, -, rfl⟩ | ⟨-, rfl⟩ := ldiIn_next h
  · exact ⟨rfl, rfl⟩
  · exact ⟨rfl, rfl⟩

theorem driveReg_sameProgram {cfg : Config} {earlier : List (Fin 6)} {r : Reg4} {v : Byte} {s s1 : State}
    (h : driveReg cfg earlier r s = .ok (v, s1)) : SameProgram s s1 := by
  obtain ⟨-, -, rfl⟩ | ⟨n, -, -, -, rfl⟩ := driveReg_ok h
  · exact ⟨rfl, rfl⟩
  · exact ⟨rfl, rfl⟩

theorem jumpReg_sameProgram {cfg : Config} {jneg : Bool} {r : Reg4} {s t : State} (h : jumpReg cfg jneg r s = .next t) :
    SameProgram s t := by
  obtain ⟨-, v, s1, hd, rfl⟩ | ⟨-, rfl⟩ := jumpReg_next h
  · obtain ⟨himem, hrom⟩ := driveReg_sameProgram hd
    exact ⟨himem, hrom⟩
  · exact ⟨rfl, rfl⟩

theorem jniIn_sameProgram {cfg : Config} {imm : Imm4} {s t : State} (h : jniIn cfg imm s = .next t) :
    SameProgram s t := by
  obtain ⟨-, rfl⟩ | ⟨-, rfl⟩ := jniIn_next h
  · exact ⟨rfl, rfl⟩
  · exact ⟨rfl, rfl⟩

theorem execIn_sameProgram {cfg : Config} {i : Instr} {s t : State} (h : execIn cfg i s = .next t) :
    SameProgram s t := by
  cases i with
  | mov dst src => exact movIn_sameProgram h
  | ldi dst imm => exact ldiIn_sameProgram h
  | jez r => exact jumpReg_sameProgram h
  | jnz r => exact jumpReg_sameProgram h
  | jni imm => exact jniIn_sameProgram h
  | hlt => cases h; exact ⟨rfl, rfl⟩
  | rst => cases h; exact ⟨rfl, rfl⟩

theorem stepIn_sameProgram {cfg : Config} {s t : State} (h : stepIn cfg s = .next t) : SameProgram s t := by
  obtain ⟨-, rfl⟩ | ⟨-, -, rfl⟩ | ⟨-, -, -, hexec⟩ := cycle_next h
  · exact ⟨rfl, rfl⟩
  · exact ⟨rfl, rfl⟩
  · exact execIn_sameProgram hexec

/-! ## Accesses to id 3 -/

theorem isRegister_of_regName {r : Reg4} {n : RegName} (hn : regName r = some n) : isRegister r = true := by
  rw [← isSome_regName, hn, Option.isSome_some]

theorem exists_regName_of_mem_readSetOf {cfg : Config} {r : Reg4} {k : Fin 6} (hk : k ∈ readSetOf cfg r) :
    ∃ n, regName r = some n ∧ k ∈ readSet cfg n := by
  cases hn : regName r with
  | none => simp [readSetOf, hn] at hk
  | some n => exact ⟨n, rfl, readSetOf_of_regName hn cfg ▸ hk⟩

theorem exists_regName_of_mem_targetSetOf {cfg : Config} {r : Reg4} {k : Fin 6} (hk : k ∈ targetSetOf cfg r) :
    ∃ n, n ≠ .difference ∧ regName r = some n ∧ k ∈ readSet cfg n := by
  cases hn : regName r with
  | none => simp [targetSetOf, hn] at hk
  | some n =>
    by_cases hne : n = .difference
    · subst hne
      simp [targetSetOf_of_difference hn] at hk
    · exact ⟨n, hne, rfl, targetSetOf_of_regName hn hne cfg ▸ hk⟩

/-- A read of a register is refused only for an access to id 3, and otherwise answers. -/
theorem readReg_eq_ok_or_memcellUndefined (cfg : Config) {r : Reg4} (hr : isRegister r = true)
    (earlier : List (Fin 6)) (s : State) :
    (∃ v s1, readReg cfg earlier r s = .ok (v, s1)) ∨ readReg cfg earlier r s = .error .memcellUndefined := by
  obtain ⟨n, hn⟩ := exists_regName hr
  rw [readReg_of_regName hn, readNamed_eq]
  split
  · exact .inr rfl
  · exact .inl ⟨_, _, rfl⟩

section
variable {cfg : Config} (hm : cfg.memcellMapped = true)
include hm

theorem readNamed_mapped {n : RegName} (h3 : 3 ∈ readSet cfg n) (earlier : List (Fin 6)) (s : State) :
    readNamed cfg earlier n s = .error .memcellUndefined := by
  simp [readNamed_eq, hm, h3]

theorem readReg_mapped {r : Reg4} (h3 : 3 ∈ readSetOf cfg r) (earlier : List (Fin 6)) (s : State) :
    readReg cfg earlier r s = .error .memcellUndefined := by
  obtain ⟨n, hn, hmem⟩ := exists_regName_of_mem_readSetOf h3
  exact (readReg_of_regName hn ..).trans (readNamed_mapped hm hmem ..)

theorem driveReg_mapped {r : Reg4} (h3 : 3 ∈ targetSetOf cfg r) (earlier : List (Fin 6)) (s : State) :
    driveReg cfg earlier r s = .error .memcellUndefined := by
  obtain ⟨n, hne, hn, hmem⟩ := exists_regName_of_mem_targetSetOf h3
  exact (driveReg_of_regName hn hne ..).trans (readNamed_mapped hm hmem ..)

theorem writeReg_mapped (v : Byte) (s : State) : writeReg cfg 3#4 v s = .error .memcellUndefined := by
  simp [writeReg, show regName 3#4 = some (.store 3) from regName_storeId 3, hm]

theorem movIn_mapped_src {dst src : Reg4} (hd : isRegister dst = true) (h3 : 3 ∈ readSetOf cfg src) (s : State) :
    movIn cfg dst src s = .refused .memcellUndefined := by
  obtain ⟨n, hn, -⟩ := exists_regName_of_mem_readSetOf h3
  simp only [movIn, isValid, hd, isRegister_of_regName hn, readReg_mapped hm h3, Bool.and_self, if_true]

theorem movIn_mapped_dst {src : Reg4} (hsrc : isRegister src = true) (s : State) :
    movIn cfg 3#4 src s = .refused .memcellUndefined := by
  have hvalid : isValid (.mov 3#4 src) = true := hsrc
  rcases readReg_eq_ok_or_memcellUndefined cfg hsrc [] s with ⟨v, s1, hr⟩ | hr
  · simp only [movIn, hvalid, hr, writeReg_mapped hm, if_true]
  · simp only [movIn, hvalid, hr, if_true]

theorem ldiIn_mapped (imm : Imm4) (s : State) : ldiIn cfg 3#4 imm s = .refused .memcellUndefined := by
  have hvalid : isValid (.ldi 3#4 imm) = true := rfl
  simp only [ldiIn, hvalid, writeReg_mapped hm, if_true]

theorem jumpReg_mapped {jneg : Bool} {r : Reg4} {s : State} (h3 : 3 ∈ targetSetOf cfg r)
    (ht : taken cfg jneg s = true) : jumpReg cfg jneg r s = .refused .memcellUndefined := by
  obtain ⟨n, -, hn, -⟩ := exists_regName_of_mem_targetSetOf h3
  simp only [jumpReg, isRegister_of_regName hn, ht, driveReg_mapped hm h3, if_true]

end

/-- What a read of a register other than the difference consults, a jump through it consults too. -/
theorem mem_readSetOf_and_targetSetOf {cfg : Config} {r : Reg4} {n : RegName} {k : Fin 6} (hn : regName r = some n)
    (hne : n ≠ .difference) (hk : k ∈ readSet cfg n) : k ∈ readSetOf cfg r ∧ k ∈ targetSetOf cfg r := by
  rw [readSetOf_of_regName hn, targetSetOf_of_regName hn hne]
  exact ⟨hk, hk⟩

end Sys2Proof.Machine
end

section
/-! PROOF. The statements on program memory, the fetch and the memory-cell register. -/

namespace Sys2Proof.Machine

/-- Settles O32: every case of a cycle keeps program memory and the ROM pages, and the host may not write during a run. -/
theorem programMemoryIsReadOnly : Obligations.ProgramMemoryIsReadOnly := by
  refine ⟨fun cfg s t h => stepIn_sameProgram h, fun s file p hreset hhalt => ?_⟩
  have hmay := State.hostMayWrite_eq_false hreset hhalt
  exact ⟨by simp [State.loadProgram, hmay], by simp [State.programRom, hmay]⟩

/-- Settles O59: a load writes the file's bytes from address 0 on. -/
theorem loadedProgramIsInPlace : Obligations.LoadedProgramIsInPlace := by
  intro s t file hwf h
  obtain ⟨hlen, rfl⟩ := State.loadProgram_ok h
  have hfits : 0 + file.length ≤ 256 := by omega
  refine ⟨Memory.wf_writeBytes hwf file hfits, rfl, fun a => ?_⟩
  simpa using Memory.read_writeBytes hwf file hfits a

/-- Settles O6: the byte that a running machine fetches decodes to a well-formed instruction, and the cycle runs it. -/
theorem stepRunsFetchedInstruction : Obligations.StepRunsFetchedInstruction := by
  rintro s i hrun rfl
  refine ⟨wellFormed_decode false _, ?_⟩
  calc step s = stepIn defaultConfig s := step_eq_stepIn s
    _ = execIn defaultConfig (decode false s.fetch) s := stepIn_of_running hrun
    _ = exec (decode false s.fetch) s := (exec_eq_execIn ..).symm

/-- Settles O28: the read, the bus drive or the write of the instruction meets the access to id 3. -/
theorem mappedMemoryCellRefused : Obligations.MappedMemoryCellRefused := by
  intro cfg s hm
  have hcell := mem_readSetOf_and_targetSetOf (cfg := cfg) (regName_storeId 3) (by decide) List.mem_cons_self
  refine ⟨fun d src hd h3 => ?_, fun src hsrc => ?_, fun k => ldiIn_mapped hm k s, fun t h3 => ⟨fun hc => ?_, fun hc => ?_⟩,
    hcell.1, hcell.2, mem_readSetOf_and_targetSetOf regName_jumpEnable (by decide),
    mem_readSetOf_and_targetSetOf regName_shift (by decide)⟩
  · exact movIn_mapped_src hm (by simp [isRegister]; omega) h3 s
  · exact movIn_mapped_dst hm (by simpa [isRegister] using hsrc) s
  · exact jumpReg_mapped hm h3 (by simp [taken, conditionReg, hc])
  · exact jumpReg_mapped hm h3 (by simp [taken, conditionReg, hc])

end Sys2Proof.Machine
end

section
/-! SUPPORT. The encoding as one relation between instructions and bytes, laid out by fields (30_encoding.md R73, R74, R78):
every well-formed instruction and every byte stands in it, and decoder, encoder and gate equations follow it. -/

namespace Sys2Proof

/-! ## A byte as its three fields -/

/-- The byte with bits `b[7]`, `b[6:4]` and `b[3:0]` (R73). -/
def fieldByte (top : Bool) (hi : BitVec 3) (lo : BitVec 4) : Byte := BitVec.ofBool top ++ hi ++ lo

@[simp] theorem top_fieldByte (top : Bool) (hi : BitVec 3) (lo : BitVec 4) : (fieldByte top hi lo)[7] = top := by
  revert top hi lo; decide

@[simp] theorem hiField_fieldByte (top : Bool) (hi : BitVec 3) (lo : BitVec 4) : hiField (fieldByte top hi lo) = hi := by
  revert top hi lo; decide

@[simp] theorem loField_fieldByte (top : Bool) (hi : BitVec 3) (lo : BitVec 4) : loField (fieldByte top hi lo) = lo := by
  revert top hi lo; decide

/-- A byte is its fields. -/
theorem fieldByte_fields (b : Byte) : fieldByte (b.getLsbD 7) (hiField b) (loField b) = b := by
  revert b; decide

@[simp] theorem gateF7_fieldByte (top : Bool) (hi : BitVec 3) (lo : BitVec 4) :
    gateF7 (fieldByte top hi lo) = decide (hi = 7#3) := by
  revert top hi lo; decide

@[simp] theorem gateHI_fieldByte (top : Bool) (hi : BitVec 3) (lo : BitVec 4) :
    gateHI (fieldByte top hi lo) = decide (14 ≤ lo.toNat) := by
  revert top hi lo; decide

/-! ## The layout -/

/-- A register id with a three-bit destination field, other than 7, is write-capable, and every write-capable id has one. -/
theorem isWriteCapable_iff (d : Reg4) : isWriteCapable d = true ↔ ∃ f : BitVec 3, f ≠ 7#3 ∧ f.zeroExtend 4 = d := by
  revert d; decide

/-- The low field of a JEZ, HLT or RST byte: `111` above the bit `c` (R74, R75). -/
def jezLow (c : Bool) : BitVec 4 := 7#3 ++ BitVec.ofBool c

/-- The layout of R73, R74 and R78: the byte of each well-formed instruction by its fields. -/
inductive Layout (swap : Bool) : Instr → Byte → Prop where
  | mov (d : BitVec 3) (s : Reg4) (hd : d ≠ 7#3) (hs : s.toNat < 14) :
      Layout swap (.mov (d.zeroExtend 4) s) (fieldByte false d s)
  | ldi (d : BitVec 3) (k : Imm4) (hd : d ≠ 7#3) : Layout swap (.ldi (d.zeroExtend 4) k) (fieldByte true d k)
  | jez (c : Bool) (h : BitVec 3) (ht : (BitVec.ofBool c ++ h).toNat < 14) :
      Layout swap (.jez (BitVec.ofBool c ++ h)) (fieldByte false h (jezLow c))
  | jnz (t : Reg4) (ht : t.toNat < 14) : Layout swap (.jnz t) (fieldByte false 7#3 t)
  | jni (k : Imm4) : Layout swap (.jni k) (fieldByte true 7#3 k)
  | hlt : Layout swap .hlt (hltByte swap)
  | rst : Layout swap .rst (rstByte swap)

theorem exists_jezTarget (t : Reg4) : ∃ (c : Bool) (h : BitVec 3), t = BitVec.ofBool c ++ h := by
  revert t; decide

theorem jezTarget_fieldByte (c : Bool) (h : BitVec 3) :
    jezTarget (fieldByte false h (jezLow c)) = BitVec.ofBool c ++ h := by
  revert c h; decide

/-- The two bytes that R78 takes out of JEZ's are those whose target would be 14 or 15. -/
theorem jezByte_eq_hlt_or_rst_iff (swap c : Bool) (h : BitVec 3) :
    fieldByte false h (jezLow c) = hltByte swap ∨ fieldByte false h (jezLow c) = rstByte swap ↔
      14 ≤ (BitVec.ofBool c ++ h).toNat := by
  revert swap c h; decide

@[simp] theorem le_jezLow (c : Bool) : 14 ≤ (jezLow c).toNat := by
  revert c; decide

theorem exists_jezLow {lo : BitVec 4} (h : 14 ≤ lo.toNat) : ∃ c, lo = jezLow c := by
  revert lo; decide

theorem decode_hltByte (swap : Bool) : decode swap (hltByte swap) = .hlt := by
  revert swap; decide

theorem decode_rstByte (swap : Bool) : decode swap (rstByte swap) = .rst := by
  revert swap; decide

theorem Layout.decode_eq {swap : Bool} {i : Instr} {b : Byte} (h : Layout swap i b) : decode swap b = i := by
  cases h with
  | mov d s hd hs => simp [decode, regOfHi, hd, hs]
  | ldi d k hd => simp [decode, regOfHi, hd]
  | jez c h ht =>
    obtain ⟨hhlt, hrst⟩ := not_or.mp fun he => absurd ((jezByte_eq_hlt_or_rst_iff swap c h).mp he) (by omega)
    simp [decode, Nat.not_lt.mpr (le_jezLow c), hhlt, hrst, jezTarget_fieldByte]
  | jnz t ht => simp [decode, ht]
  | jni k => simp [decode]
  | hlt => exact decode_hltByte swap
  | rst => exact decode_rstByte swap

/-! ## The encoder's shifts and masks, by fields (R85) -/

theorem encodeMov_eq_fieldByte (d : BitVec 3) (s : Reg4) :
    ((d.zeroExtend 4).zeroExtend 8 <<< 4) ||| s.zeroExtend 8 = fieldByte false d s := by
  revert d s; decide

theorem encodeLdi_eq_fieldByte (d : BitVec 3) (k : Imm4) :
    0x80#8 ||| ((d.zeroExtend 4).zeroExtend 8 <<< 4) ||| k.zeroExtend 8 = fieldByte true d k := by
  revert d k; decide

theorem encodeJez_eq_fieldByte (c : Bool) (h : BitVec 3) :
    ((((BitVec.ofBool c ++ h) &&& 7#4).zeroExtend 8) <<< 4) ||| 0x0E#8 ||| ((BitVec.ofBool c ++ h) >>> 3).zeroExtend 8 =
      fieldByte false h (jezLow c) := by
  revert c h; decide

theorem encodeJnz_eq_fieldByte (t : Reg4) : 0x70#8 ||| t.zeroExtend 8 = fieldByte false 7#3 t := by
  revert t; decide

theorem encodeJni_eq_fieldByte (k : Imm4) : 0xF0#8 ||| k.zeroExtend 8 = fieldByte true 7#3 k := by
  revert k; decide

theorem Layout.wellFormed {swap : Bool} {i : Instr} {b : Byte} (h : Layout swap i b) : wellFormed i = true := by
  rw [← h.decode_eq]
  exact Machine.wellFormed_decode swap b

theorem Layout.encode_eq {swap : Bool} {i : Instr} {b : Byte} (h : Layout swap i b) : encode swap i = .ok b := by
  obtain ⟨hvalid, hdst⟩ := Bool.and_eq_true_iff.mp h.wellFormed
  cases h with
  | mov d s _ _ =>
    have hw : isWriteCapable (d.zeroExtend 4) = true := hdst
    simp only [encode, hvalid, hw, if_true, encodeMov_eq_fieldByte]
  | ldi d k _ =>
    have hw : isWriteCapable (d.zeroExtend 4) = true := hdst
    simp only [encode, hvalid, hw, if_true, encodeLdi_eq_fieldByte]
  | jez c h _ => simp only [encode, hvalid, if_true, encodeJez_eq_fieldByte]
  | jnz t _ => simp only [encode, hvalid, if_true, encodeJnz_eq_fieldByte]
  | jni k => simp only [encode, hvalid, if_true, encodeJni_eq_fieldByte]
  | hlt => rfl
  | rst => rfl

/-- Every well-formed instruction has a byte. -/
theorem exists_layout_of_wellFormed (swap : Bool) {i : Instr} (hi : wellFormed i = true) : ∃ b, Layout swap i b := by
  obtain ⟨hvalid, hdst⟩ := Bool.and_eq_true_iff.mp hi
  cases i with
  | mov d s =>
    obtain ⟨f, hf, rfl⟩ := (isWriteCapable_iff d).mp hdst
    have hs : isRegister s = true := (Bool.and_eq_true_iff.mp hvalid).2
    exact ⟨_, .mov f s hf (of_decide_eq_true hs)⟩
  | ldi d k =>
    obtain ⟨f, hf, rfl⟩ := (isWriteCapable_iff d).mp hdst
    exact ⟨_, .ldi f k hf⟩
  | jez t =>
    obtain ⟨c, h, rfl⟩ := exists_jezTarget t
    exact ⟨_, .jez c h (of_decide_eq_true hvalid)⟩
  | jnz t => exact ⟨_, .jnz t (of_decide_eq_true hvalid)⟩
  | jni k => exact ⟨_, .jni k⟩
  | hlt => exact ⟨_, .hlt⟩
  | rst => exact ⟨_, .rst⟩

/-- Every byte is that of an instruction: the decision tree of R75 by the byte's fields. -/
theorem exists_layout (swap : Bool) (b : Byte) : ∃ i, Layout swap i b := by
  rw [← fieldByte_fields b]
  generalize hiField b = hi, loField b = lo
  cases b.getLsbD 7 with
  | true =>
    by_cases h7 : hi = 7#3
    · subst h7; exact ⟨_, .jni lo⟩
    · exact ⟨_, .ldi hi lo h7⟩
  | false =>
    by_cases hlo : lo.toNat < 14
    · by_cases h7 : hi = 7#3
      · subst h7; exact ⟨_, .jnz lo hlo⟩
      · exact ⟨_, .mov hi lo h7 hlo⟩
    · obtain ⟨c, rfl⟩ := exists_jezLow (Nat.le_of_not_lt hlo)
      by_cases ht : (BitVec.ofBool c ++ hi).toNat < 14
      · exact ⟨_, .jez c hi ht⟩
      · rcases (jezByte_eq_hlt_or_rst_iff swap c hi).mpr (Nat.le_of_not_lt ht) with h | h
        · exact ⟨.hlt, h ▸ .hlt⟩
        · exact ⟨.rst, h ▸ .rst⟩

theorem layout_decode (swap : Bool) (b : Byte) : Layout swap (decode swap b) b := by
  obtain ⟨i, hl⟩ := exists_layout swap b
  rwa [hl.decode_eq]

/-! ## What the encoder answers (R84) -/

theorem encodes (i : Instr) : Laws.Encodes.Statement i := by
  cases i with
  | mov d s => exact Laws.Encodes.mov d s
  | ldi d k => exact Laws.Encodes.ldi d k
  | jez t => exact Laws.Encodes.jez t
  | jnz t => exact Laws.Encodes.jnz t
  | jni k => exact Laws.Encodes.jni k
  | hlt => exact Laws.Encodes.hlt
  | rst => exact Laws.Encodes.rst

theorem encode_of_invalid (swap : Bool) {i : Instr} (hi : isValid i = false) : encode swap i = .error .invalidInstruction := by
  simp [encode, hi]

/-- The instruction is a MOV or an LDI to register `d` (R86). -/
def HasDestination (i : Instr) (d : Reg4) : Prop := (∃ src, i = .mov d src) ∨ ∃ k, i = .ldi d k

theorem isWriteCapable_eq_false_iff (d : Reg4) : isWriteCapable d = false ↔ 7 ≤ d.toNat := by
  simp [isWriteCapable]

/-- Every instruction is invalid, well formed, or valid with a read-only destination. -/
theorem invalid_or_wellFormed_or_readOnly (i : Instr) :
    isValid i = false ∨ wellFormed i = true ∨ isValid i = true ∧ ∃ d, HasDestination i d ∧ isWriteCapable d = false := by
  cases hvalid : isValid i with
  | false => exact .inl rfl
  | true =>
    cases hdst : destinationWritable i with
    | true => exact .inr (.inl (Bool.and_eq_true_iff.mpr ⟨hvalid, hdst⟩))
    | false =>
      refine .inr (.inr ⟨rfl, ?_⟩)
      cases i with
      | mov d s => exact ⟨d, .inl ⟨s, rfl⟩, hdst⟩
      | ldi d k => exact ⟨d, .inr ⟨k, rfl⟩, hdst⟩
      | jez t => cases hdst
      | jnz t => cases hdst
      | jni k => cases hdst
      | hlt => cases hdst
      | rst => cases hdst

theorem encode_of_readOnly (swap : Bool) {i : Instr} {d : Reg4} (hi : isValid i = true) (hd : HasDestination i d)
    (hro : isWriteCapable d = false) : encode swap i = .error (.illegalDestination d) := by
  rcases hd with ⟨src, rfl⟩ | ⟨k, rfl⟩ <;> simp [encode, hi, hro]

theorem encode_eq_illegalDestination_iff (swap : Bool) (i : Instr) (d : Reg4) :
    encode swap i = .error (.illegalDestination d) ↔ isValid i = true ∧ 7 ≤ d.toNat ∧ HasDestination i d := by
  rw [← isWriteCapable_eq_false_iff]
  refine ⟨fun h => ?_, fun ⟨hi, hro, hd⟩ => encode_of_readOnly swap hi hd hro⟩
  rcases invalid_or_wellFormed_or_readOnly i with hi | hi | ⟨hi, e, he, hro⟩
  · cases (encode_of_invalid swap hi).symm.trans h
  · obtain ⟨b, hl⟩ := exists_layout_of_wellFormed swap hi
    cases hl.encode_eq.symm.trans h
  · cases (encode_of_readOnly swap hi he hro).symm.trans h
    exact ⟨hi, hro, he⟩

theorem encode_eq_invalidInstruction_iff (swap : Bool) (i : Instr) :
    encode swap i = .error .invalidInstruction ↔ isValid i = false := by
  refine ⟨fun h => ?_, encode_of_invalid swap⟩
  rcases invalid_or_wellFormed_or_readOnly i with hi | hi | ⟨hi, e, he, hro⟩
  · exact hi
  · obtain ⟨b, hl⟩ := exists_layout_of_wellFormed swap hi
    cases hl.encode_eq.symm.trans h
  · cases (encode_of_readOnly swap hi he hro).symm.trans h

theorem encode_eq_ok_iff (swap : Bool) (i : Instr) : (∃ b, encode swap i = .ok b) ↔ wellFormed i = true := by
  rw [← encodes i swap]
  cases encode swap i with
  | ok b => simp [Except.isOk, Except.toBool]
  | error e => simp [Except.isOk, Except.toBool]

/-! ## The gate equations and the field outputs (R76) -/

theorem Layout.eq_hltByte_iff {swap : Bool} {i : Instr} {b : Byte} (h : Layout swap i b) : b = hltByte swap ↔ i = .hlt := by
  refine ⟨fun hb => ?_, fun hi => ?_⟩
  · rw [← h.decode_eq, hb, decode_hltByte]
  · subst hi; cases h; rfl

theorem Layout.eq_rstByte_iff {swap : Bool} {i : Instr} {b : Byte} (h : Layout swap i b) : b = rstByte swap ↔ i = .rst := by
  refine ⟨fun hb => ?_, fun hi => ?_⟩
  · rw [← h.decode_eq, hb, decode_rstByte]
  · subst hi; cases h; rfl

theorem Layout.gateOp_eq {swap : Bool} {i : Instr} {b : Byte} (h : Layout swap i b) : gateOp swap b = opLines i := by
  have hhlt := h.eq_hltByte_iff
  have hrst := h.eq_rstByte_iff
  cases h with
  | mov d s hd hs => simp [gateOp, opLines, hhlt, hrst, hd, hs]
  | ldi d k hd => simp [gateOp, opLines, hhlt, hrst, hd]
  | jez c h ht => simp [gateOp, opLines, hhlt, hrst]
  | jnz t ht => simp [gateOp, opLines, hhlt, hrst, ht]
  | jni k => simp [gateOp, opLines, hhlt, hrst]
  | hlt => revert swap; decide
  | rst => revert swap; decide

theorem jezTarget_toNat (b : Byte) : (jezTarget b).toNat = 8 * (b.getLsbD 0).toNat + (hiField b).toNat := by
  revert b; decide

end Sys2Proof
end

section
/-! PROOF. The statements on the encoding. -/

namespace Sys2Proof

/-- Settles O1: decoder and encoder both follow the one layout, in which every well-formed instruction and every byte stands. -/
theorem decodeAndEncodeAgree : Obligations.DecodeAndEncodeAgree := by
  refine ⟨fun swap i hi => ?_, fun swap b => ?_⟩
  · obtain ⟨b, hl⟩ := exists_layout_of_wellFormed swap hi
    exact ⟨b, hl.encode_eq, hl.decode_eq⟩
  · have hl := layout_decode swap b
    exact ⟨hl.wellFormed, hl.encode_eq⟩

/-- Settles O2: an instruction is invalid, well formed, or valid with a read-only destination, and each class has one answer. -/
theorem encoderErrorsExactly : Obligations.EncoderErrorsExactly := fun swap i =>
  ⟨encode_eq_invalidInstruction_iff swap i, encode_eq_illegalDestination_iff swap i, encode_eq_ok_iff swap i⟩

/-- Settles O3, by the byte's place in the layout. -/
theorem gateEquationsAreTheDecoder : Obligations.GateEquationsAreTheDecoder := by
  intro cfg b
  have hhi : b.extractLsb' 4 3 = hiField b := rfl
  have hlo : b.extractLsb' 0 4 = loField b := rfl
  obtain ⟨i, hl⟩ := exists_layout cfg.hltRstSwap b
  have hdec := hl.decode_eq
  rw [hhi, hlo, hdec]
  refine ⟨hl.gateOp_eq, ?_⟩
  cases hl with
  | mov d s => simp
  | ldi d k => simp
  | jez c h =>
    have ht := jezTarget_fieldByte c h
    simp only [Machine.tgtPort, hdec, ← jezTarget_toNat, ht, and_self]
  | jnz t => simp [Machine.tgtPort, hdec]
  | jni k => simp
  | hlt => trivial
  | rst => trivial

/-- Settles O4, by evaluating the decoder. -/
theorem byteMapSamples : Obligations.ByteMapSamples := by
  unfold Obligations.ByteMapSamples
  decide

set_option maxRecDepth 4000 in
/-- Settles O5, by decoding each of the 256 bytes. -/
theorem opcodeByteCounts : Obligations.OpcodeByteCounts := by
  intro swap
  cases swap with
  | false => decide
  | true => decide

end Sys2Proof
end

section
/-! SUPPORT. The text front end over pieces of text: what the tokenizer does with white space, words and comments, and what
the compile driver does with the lines of a text (30_encoding.md R110-R117, R125). -/

namespace Sys2Proof.Machine

/-! ## The tokenizer over a piece of text -/

/-- The tokenizer takes `st` through the bytes `bs`, all inside one line, to `st'`. -/
inductive Scans : LineState → List Byte → LineState → Prop where
  | nil (st : LineState) : Scans st [] st
  | cons {st st1 st2 : LineState} {b : Byte} {bs : List Byte} (head : scanByte st b = .more st1) (tail : Scans st1 bs st2) :
      Scans st (b :: bs) st2

theorem Scans.append {st st1 st2 : LineState} {xs ys : List Byte} (h1 : Scans st xs st1) (h2 : Scans st1 ys st2) :
    Scans st (xs ++ ys) st2 := by
  induction h1 with
  | nil _ => exact h2
  | cons head _ ih => exact .cons head (ih h2)

theorem Scans.scanLine_append {st st1 : LineState} {xs : List Byte} (h : Scans st xs st1) (ys : List Byte) :
    scanLine st (xs ++ ys) = scanLine st1 ys := by
  induction h with
  | nil _ => rfl
  | cons head _ ih => simp only [List.cons_append, scanLine, head, ih]

theorem Scans.scanLine_eq {st st1 : LineState} {xs : List Byte} (h : Scans st xs st1) :
    scanLine st xs = .ok (closeLine st1 true) := by
  simpa [scanLine] using h.scanLine_append []

theorem Scans.compileFrom_append {st st1 : LineState} {xs : List Byte} (h : Scans st xs st1) (cfg : Config)
    (ending : InputEnd) (ys : List Byte) (n : Nat) (out : OutStream) :
    compileFrom cfg ending (xs ++ ys) st n out = compileFrom cfg ending ys st1 n out := by
  induction h with
  | nil _ => rfl
  | cons head _ ih => simp only [List.cons_append, compileFrom, head, ih]

/-! ## One byte of a line -/

theorem scanByte_newline (st : LineState) : scanByte st newlineByte = .line (closeLine st false) := by
  simp [scanByte]

/-- A white-space byte is no newline and has its high bit clear. -/
theorem isWhitespace_plain {b : Byte} (h : isWhitespace b = true) : b ≠ newlineByte ∧ b[7] = false := by
  simp only [isWhitespace, Bool.or_eq_true, beq_iff_eq] at h
  rcases h with (((rfl | rfl) | rfl) | rfl) | rfl <;> decide

theorem scanByte_whitespace_of_no_word {ts : List Token} {started : Bool} {b : Byte} (h : isWhitespace b = true) :
    scanByte ⟨ts, [], false, started⟩ b = .more ⟨ts, [], false, true⟩ := by
  obtain ⟨hnl, h7⟩ := isWhitespace_plain h
  simp [scanByte, hnl, h7, h]

theorem scanByte_space_after_word {ts : List Token} {w : List Byte} {started : Bool} (hw : w ≠ []) :
    scanByte ⟨ts, w, false, started⟩ spaceByte = .more ⟨ts ++ [⟨w, false, false⟩], [], false, true⟩ := by
  have hspace : spaceByte ≠ newlineByte ∧ spaceByte[7] = false ∧ isWhitespace spaceByte = true := by decide
  simp [scanByte, hspace, hw]

theorem scanByte_comment (ts : List Token) (w : List Byte) (started : Bool) :
    scanByte ⟨ts, w, false, started⟩ commentByte = .more ⟨ts, w, true, true⟩ := by
  have hcomment : commentByte ≠ newlineByte ∧ commentByte[7] = false ∧ isWhitespace commentByte = false := by decide
  simp [scanByte, hcomment]

theorem scanByte_wordChar {ts : List Token} {w : List Byte} {started : Bool} {c : Byte} (hc : isWordChar c = true)
    (hts : ts.length < 3) (hw : w.length < 6) :
    scanByte ⟨ts, w, false, started⟩ c = .more ⟨ts, w ++ [c], false, true⟩ := by
  simp only [isWordChar, Bool.and_eq_true, bne_iff_ne, Bool.not_eq_true', beq_iff_eq] at hc
  obtain ⟨⟨⟨⟨hnl, h7⟩, hblank⟩, hcomment⟩, hfold⟩ := hc
  simp only [scanByte, hnl, h7, hblank, hcomment, hfold, hts.ne, hw.ne, if_false, Bool.false_eq_true]

/-! ## White space and comments -/

theorem exists_scans_whitespace {ts : List Token} {blank : List Byte} (h : ∀ b ∈ blank, isWhitespace b = true)
    (started : Bool) : ∃ started', Scans ⟨ts, [], false, started⟩ blank ⟨ts, [], false, started'⟩ := by
  induction blank generalizing started with
  | nil => exact ⟨started, .nil _⟩
  | cons b bs ih =>
    obtain ⟨hb, hbs⟩ := List.forall_mem_cons.mp h
    obtain ⟨started', hs⟩ := ih hbs true
    exact ⟨started', .cons (scanByte_whitespace_of_no_word hb) hs⟩

/-- A comment runs to the end of the line and may not hold a byte with its high bit set (R110, R112). -/
theorem scanLine_comment {st : LineState} (hst : st.comment = true) {comment : List Byte} (hnl : newlineByte ∉ comment) :
    scanLine st comment =
      if comment.any (fun b => b.getLsbD 7) then .error .invalidCharacter else .ok (closeLine st true) := by
  induction comment with
  | nil => rfl
  | cons b bs ih =>
    obtain ⟨hb, hbs⟩ := not_or.mp (mt List.mem_cons.mpr hnl)
    by_cases h7 : b[7] = true
    · simp [scanLine, scanByte, Ne.symm hb, h7]
    · simp [scanLine, scanByte, Ne.symm hb, h7, hst, ih hbs]

theorem lineWords_closeLine_blank (comment started endsInput : Bool) :
    lineWords (closeLine ⟨[], [], comment, started⟩ endsInput) = [] := by
  simp [closeLine, lineWords]

/-! ## Words -/

/-- A word the tokenizer takes as it is: 1 to 6 characters (R114, R116). -/
structure IsWord (w : List Byte) : Prop where
  ne_nil : w ≠ []
  length_le : w.length ≤ 6
  chars : ∀ c ∈ w, isWordChar c = true

theorem exists_scans_chars {ts : List Token} (hts : ts.length < 3) {w cur : List Byte}
    (hw : ∀ c ∈ w, isWordChar c = true) (hlen : cur.length + w.length ≤ 6) (started : Bool) :
    ∃ started', Scans ⟨ts, cur, false, started⟩ w ⟨ts, cur ++ w, false, started'⟩ := by
  induction w generalizing cur started with
  | nil => exact ⟨started, by simpa using .nil _⟩
  | cons c cs ih =>
    obtain ⟨hc, hcs⟩ := List.forall_mem_cons.mp hw
    rw [List.length_cons] at hlen
    obtain ⟨started', hs⟩ := ih (cur := cur ++ [c]) hcs (by simp; omega) true
    exact ⟨started', .cons (scanByte_wordChar hc hts (by omega)) (by simpa using hs)⟩

theorem exists_scans_word {ts : List Token} (hts : ts.length < 3) {w : List Byte} (hw : IsWord w) (started : Bool) :
    ∃ started', Scans ⟨ts, [], false, started⟩ w ⟨ts, w, false, started'⟩ := by
  simpa using exists_scans_chars (cur := []) hts hw.chars (by simpa using hw.length_le) started

theorem lineWords_append_word {w : List Byte} (hw : w ≠ []) (ts : List Token) (endsLine endsInput : Bool)
    (ws : List (List Byte)) : lineWords (ts ++ [⟨w, endsLine, endsInput⟩]) ++ ws = lineWords ts ++ w :: ws := by
  simp [lineWords, hw]

/-- Up to three words with single spaces between them are the line's words, wherever the line ends. -/
theorem exists_scans_joinWords {ws : List (List Byte)} (hws : ∀ w ∈ ws, IsWord w) {ts : List Token}
    (hlen : ts.length + ws.length ≤ 3) (started : Bool) :
    ∃ st, Scans ⟨ts, [], false, started⟩ (joinWords ws) st ∧
      ∀ endsInput, lineWords (closeLine st endsInput) = lineWords ts ++ ws := by
  induction ws using joinWords.induct generalizing ts started with
  | case1 => exact ⟨_, .nil _, fun endsInput => by by_cases h : ts.length = 3 <;> simp [closeLine, lineWords, h]⟩
  | case2 w =>
    have hw := hws w List.mem_cons_self
    obtain ⟨started', hs⟩ := exists_scans_word (ts := ts) (by simpa using hlen) hw started
    exact ⟨_, hs, fun endsInput => by simp [closeLine, lineWords, hw.ne_nil]⟩
  | case3 w v ws ih =>
    obtain ⟨hw, hrest⟩ := List.forall_mem_cons.mp hws
    simp only [List.length_cons] at hlen
    obtain ⟨started', hs⟩ := exists_scans_word (ts := ts) (by omega) hw started
    obtain ⟨st, hst, hwords⟩ := ih hrest (ts := ts ++ [⟨w, false, false⟩]) (by simp; omega) true
    refine ⟨st, hs.append (.cons (scanByte_space_after_word hw.ne_nil) hst), fun endsInput => ?_⟩
    rw [hwords, lineWords_append_word hw.ne_nil]

/-! ## The canonical text of an instruction -/

theorem isWord_mnemonicText (op : Opcode) : IsWord (mnemonicText op) := by
  cases op <;> exact ⟨by decide, by decide, List.all_eq_true.mp (by decide)⟩

theorem isWord_decimalText (k : Imm4) : IsWord (decimalText k) := by
  refine ⟨by revert k; decide, by revert k; decide, List.all_eq_true.mp ?_⟩
  revert k; decide

theorem opcodeOf_mnemonicText (op : Opcode) : opcodeOf (mnemonicText op) = some op := by
  cases op <;> decide

/-- R123 read back what R126 writes, for each of the 16 immediates. -/
theorem parseImm_decimalText (k : Imm4) : parseImm (decimalText k) = .ok k := by
  revert k; decide

theorem mem_registerIds (r : Fin 14) : r ∈ registerIds := by
  revert r; decide

section
variable {cfg : Config} (hl : LettersLawful cfg)
include hl

theorem isWord_letterOf {r : Reg4} (hr : isRegister r = true) : IsWord [letterOf cfg r] := by
  have h14 : r.toNat < 14 := of_decide_eq_true hr
  exact ⟨by simp, by simp, by simpa [letterOf, h14] using hl.2 ⟨r.toNat, h14⟩⟩

/-- The letters are different, so the search of R120 finds the register whose letter it is given. -/
theorem find?_regLetter (r : Fin 14) : registerIds.find? (fun q => cfg.regLetter q == cfg.regLetter r) = some r := by
  cases hf : registerIds.find? (fun q => cfg.regLetter q == cfg.regLetter r) with
  | none => simpa using List.find?_eq_none.mp hf r (mem_registerIds r)
  | some q =>
    have hq := List.find?_some hf
    rw [hl.1 q r (beq_iff_eq.mp hq)]

theorem parseReg_letterOf {r : Reg4} (hr : isRegister r = true) : parseReg cfg [letterOf cfg r] = .ok r := by
  have h14 : r.toNat < 14 := of_decide_eq_true hr
  simp [parseReg, letterOf, h14, find?_regLetter hl]

theorem isWord_of_mem_formatWords {i : Instr} (hi : isValid i = true) : ∀ w ∈ formatWords cfg i, IsWord w := by
  cases i with
  | mov d s =>
    obtain ⟨hd, hs⟩ := Bool.and_eq_true_iff.mp hi
    simp [formatWords, isWord_mnemonicText, isWord_letterOf hl hd, isWord_letterOf hl hs]
  | ldi d k => simp [formatWords, isWord_mnemonicText, isWord_letterOf hl hi, isWord_decimalText]
  | jez t => simp [formatWords, isWord_mnemonicText, isWord_letterOf hl hi]
  | jnz t => simp [formatWords, isWord_mnemonicText, isWord_letterOf hl hi]
  | jni k => simp [formatWords, isWord_mnemonicText, isWord_decimalText]
  | hlt => simp [formatWords, isWord_mnemonicText]
  | rst => simp [formatWords, isWord_mnemonicText]

theorem parseWords_formatWords {i : Instr} (hi : isValid i = true) : parseWords cfg (formatWords cfg i) = .ok i := by
  cases i with
  | mov d s =>
    obtain ⟨hd, hs⟩ := Bool.and_eq_true_iff.mp hi
    simp [formatWords, parseWords, opcodeOf_mnemonicText, parseOperands, withReg, parseReg_letterOf hl hd,
      parseReg_letterOf hl hs]
  | ldi d k =>
    simp [formatWords, parseWords, opcodeOf_mnemonicText, parseOperands, withReg, withImm, parseReg_letterOf hl hi,
      parseImm_decimalText]
  | jez t => simp [formatWords, parseWords, opcodeOf_mnemonicText, parseOperands, withReg, parseReg_letterOf hl hi]
  | jnz t => simp [formatWords, parseWords, opcodeOf_mnemonicText, parseOperands, withReg, parseReg_letterOf hl hi]
  | jni k => simp [formatWords, parseWords, opcodeOf_mnemonicText, parseOperands, withImm, parseImm_decimalText]
  | hlt => simp [formatWords, parseWords, opcodeOf_mnemonicText, parseOperands]
  | rst => simp [formatWords, parseWords, opcodeOf_mnemonicText, parseOperands]

theorem exists_scans_formatInstr {i : Instr} (hi : isValid i = true) :
    ∃ st, Scans LineState.fresh (formatInstr cfg i) st ∧
      ∀ endsInput, lineWords (closeLine st endsInput) = formatWords cfg i := by
  have hlen : (formatWords cfg i).length ≤ 3 := by cases i <;> simp [formatWords]
  rw [formatInstr, if_pos hi]
  exact exists_scans_joinWords (isWord_of_mem_formatWords hl hi) (ts := []) (by simpa using hlen) false

end

/-! ## The compile driver at the end of a line -/

theorem compileFrom_more {st st1 : LineState} {b : Byte} (h : scanByte st b = .more st1) (cfg : Config)
    (ending : InputEnd) (bs : List Byte) (n : Nat) (out : OutStream) :
    compileFrom cfg ending (b :: bs) st n out = compileFrom cfg ending bs st1 n out := by
  simp only [compileFrom, h]

theorem compileFrom_newline_ok {cfg : Config} {st : LineState} {out out1 : OutStream}
    (h : emitLine cfg (closeLine st false) out = .ok out1) (ending : InputEnd) (bs : List Byte) (n : Nat) :
    compileFrom cfg ending (newlineByte :: bs) st n out = compileFrom cfg ending bs LineState.fresh (n + 1) out1 := by
  simp only [compileFrom, scanByte_newline, h]

theorem compileFrom_fresh_nil (cfg : Config) (n : Nat) (out : OutStream) :
    compileFrom cfg .eof [] LineState.fresh n out = (.ok (n - 1), out) := rfl

theorem eq_newline_of_scanByte_line {st : LineState} {b : Byte} {tokens : List Token} (h : scanByte st b = .line tokens) :
    b = newlineByte ∧ closeLine st false = tokens := by
  by_cases hb : b = newlineByte
  · subst hb
    exact ⟨rfl, Scan.line.inj ((scanByte_newline st).symm.trans h)⟩
  · simp only [scanByte, hb, if_false] at h
    split_ifs at h

theorem ne_newline_of_scanByte_more {st st1 : LineState} {b : Byte} (h : scanByte st b = .more st1) : b ≠ newlineByte := by
  rintro rfl
  cases (scanByte_newline st).symm.trans h

theorem OutStream.put_sent {out out1 : OutStream} {b : Byte} (h : out.put b = some out1) : out1.sent = out.sent ++ [b] := by
  unfold OutStream.put at h
  split at h <;> cases h <;> rfl

/-- A line that is no error adds at most one byte to the output. -/
theorem emitLine_ok {cfg : Config} {tokens : List Token} {out out1 : OutStream} (h : emitLine cfg tokens out = .ok out1) :
    ∃ bs : List Byte, out1.sent = out.sent ++ bs ∧ bs.length ≤ 1 := by
  unfold emitLine at h
  split at h
  · cases h
  · cases h; exact ⟨[], by simp, by simp⟩
  · next b _ =>
    split at h
    · next hput => cases h; exact ⟨[b], OutStream.put_sent hput, le_rfl⟩
    · cases h

/-- A compile that began at line `n`, has written `written` bytes and ended with the result wrote at most one byte for each
line from `n` on that it finished (R125). -/
def CountsLines (n written : Nat) : CompileResult → Prop
  | .ok m => written + n ≤ m + 1
  | .error (m, _) => written + n ≤ m

theorem CountsLines.of_next_line {n k written : Nat} {r : CompileResult} (h : CountsLines (n + 1) written r) (hk : k ≤ 1) :
    CountsLines n (k + written) r := by
  cases r with
  | ok m => simp only [CountsLines] at *; omega
  | error p => simp only [CountsLines] at *; omega

/-- R125: a compile only appends to its output, at most one byte a line. -/
theorem exists_compileFrom_sent (cfg : Config) (ending : InputEnd) (text : List Byte) (st : LineState) (n : Nat)
    (out : OutStream) : ∃ bs, (compileFrom cfg ending text st n out).2.sent = out.sent ++ bs ∧
      CountsLines n bs.length (compileFrom cfg ending text st n out).1 := by
  fun_induction compileFrom cfg ending text st n out with
  | case2 st n out _ _ out1 hemit =>
    obtain ⟨bs, hsent, hlen⟩ := emitLine_ok hemit
    exact ⟨bs, hsent, by simp only [CountsLines]; omega⟩
  | case4 st n out => exact ⟨[], by simp, by simp only [CountsLines, List.length_nil]; omega⟩
  | case6 b bs st n out st1 _ ih => exact ih
  | case7 b bs st n out tokens _ out1 hemit ih =>
    obtain ⟨first, hfirst, hone⟩ := emitLine_ok hemit
    obtain ⟨more, hmore, hcount⟩ := ih
    exact ⟨first ++ more, by simp [hmore, hfirst], by simpa using hcount.of_next_line hone⟩
  | _ => exact ⟨[], by simp, by simp [CountsLines]⟩

/-- R125: a compile that fails in line `m` wrote nothing for the line it began in, or it finished the lines before `m`, and on
those alone it succeeds with the same output. -/
theorem compileFrom_error {cfg : Config} {ending : InputEnd} {text : List Byte} {st : LineState} {n m : Nat}
    {out out' : OutStream} {e : AsmError} (h : compileFrom cfg ending text st n out = (.error (m, e), out')) :
    m = n ∧ out' = out ∨
      ∃ earlier rest, text = earlier ++ rest ∧ earlier.count newlineByte + n = m ∧ earlier.getLast? = some newlineByte ∧
        compileFrom cfg .eof earlier st n out = (.ok (m - 1), out') := by
  fun_induction compileFrom cfg ending text st n out with
  | case2 => cases h
  | case4 => cases h
  | case6 b bs st n out st1 hscan ih =>
    have hb := ne_newline_of_scanByte_more hscan
    rcases ih h with hfirst | ⟨earlier, rest, rfl, hcount, hlast, hcompile⟩
    · exact .inl hfirst
    · refine .inr ⟨b :: earlier, rest, rfl, by simpa [hb] using hcount, by simp [List.getLast?_cons, hlast], ?_⟩
      rw [compileFrom_more hscan, hcompile]
  | case7 b bs st n out tokens hscan out1 hemit ih =>
    obtain ⟨rfl, rfl⟩ := eq_newline_of_scanByte_line hscan
    right
    rcases ih h with ⟨rfl, rfl⟩ | ⟨earlier, rest, rfl, hcount, hlast, hcompile⟩
    · refine ⟨[newlineByte], bs, rfl, by simp [Nat.add_comm], rfl, ?_⟩
      rw [compileFrom_newline_ok hemit, compileFrom_fresh_nil]
    · refine ⟨newlineByte :: earlier, rest, rfl, ?_, by simp [List.getLast?_cons, hlast], ?_⟩
      · rw [List.count_cons_self]; omega
      · rw [compileFrom_newline_ok hemit, hcompile]
  | _ => cases h; exact .inl ⟨rfl, rfl⟩

/-! ## The text of a disassembly -/

/-- The text that disassembling `bs` writes (R128): a line for each byte. -/
def disassembly (cfg : Config) (bs : List Byte) : List Byte :=
  bs.flatMap fun b => formatInstr cfg (decode cfg.hltRstSwap b) ++ [newlineByte]

theorem OutStream.putAll_unbounded (sent bs : List Byte) :
    OutStream.putAll ⟨sent, none⟩ bs = (true, ⟨sent ++ bs, none⟩) := by
  induction bs generalizing sent with
  | nil => simp [OutStream.putAll]
  | cons b bs ih => simp [OutStream.putAll, OutStream.put, ih]

theorem disassembleFrom_eof (cfg : Config) (bs : List Byte) (n : Nat) (sent : List Byte) :
    disassembleFrom cfg .eof bs n ⟨sent, none⟩ = (.ok (), ⟨sent ++ disassembly cfg bs, none⟩) := by
  induction bs generalizing n sent with
  | nil => simp [disassembleFrom, disassembly]
  | cons b bs ih => simp [disassembleFrom, disassembly, OutStream.putAll_unbounded, ih]

theorem assembleWords_of_parseWords {cfg : Config} {ws : List (List Byte)} {i : Instr} {b : Byte}
    (hp : parseWords cfg ws = .ok i) (he : encode cfg.hltRstSwap i = .ok b) : assembleWords cfg ws = .ok (some b) := by
  cases ws with
  | nil => cases hp
  | cons w ops => simp only [assembleWords, hp, he]

/-- On an output without limit a line that gives the byte `b` writes it. -/
theorem emitLine_unbounded {cfg : Config} {tokens : List Token} {b : Byte}
    (h : assembleWords cfg (lineWords tokens) = .ok (some b)) (sent : List Byte) :
    emitLine cfg tokens ⟨sent, none⟩ = .ok ⟨sent ++ [b], none⟩ := by
  simp only [emitLine, h, OutStream.put]

/-- The canonical text of a decoded byte and a newline: the compile writes that byte and goes on in the next line. -/
theorem compileFrom_formatInstr_decode {cfg : Config} (hl : LettersLawful cfg) (b : Byte) (text : List Byte) (n : Nat)
    (sent : List Byte) :
    compileFrom cfg .eof (formatInstr cfg (decode cfg.hltRstSwap b) ++ newlineByte :: text) LineState.fresh n ⟨sent, none⟩ =
      compileFrom cfg .eof text LineState.fresh (n + 1) ⟨sent ++ [b], none⟩ := by
  have hlay := layout_decode cfg.hltRstSwap b
  have hvalid := (Bool.and_eq_true_iff.mp hlay.wellFormed).1
  obtain ⟨st, hscan, hwords⟩ := exists_scans_formatInstr hl hvalid
  have hbyte : assembleWords cfg (lineWords (closeLine st false)) = .ok (some b) := by
    rw [hwords]
    exact assembleWords_of_parseWords (parseWords_formatWords hl hvalid) hlay.encode_eq
  rw [hscan.compileFrom_append, compileFrom_newline_ok (emitLine_unbounded hbyte sent)]

/-- The compile of a disassembly that begins at line `n + 1`. -/
theorem compileFrom_disassembly {cfg : Config} (hl : LettersLawful cfg) (bs : List Byte) (n : Nat) (sent : List Byte) :
    compileFrom cfg .eof (disassembly cfg bs) LineState.fresh (n + 1) ⟨sent, none⟩ =
      (.ok (n + bs.length), ⟨sent ++ bs, none⟩) := by
  induction bs generalizing n sent with
  | nil => simpa [disassembly] using compileFrom_fresh_nil cfg (n + 1) ⟨sent, none⟩
  | cons b bs ih =>
    have htext : disassembly cfg (b :: bs) =
        formatInstr cfg (decode cfg.hltRstSwap b) ++ newlineByte :: disassembly cfg bs := by simp [disassembly]
    rw [htext, compileFrom_formatInstr_decode hl, ih]
    simp [Nat.add_assoc, Nat.add_comm]

end Sys2Proof.Machine
end

section
/-! PROOF. The statements on assembly text. -/

namespace Sys2Proof.Machine

/-- Settles O55: each line of a disassembly compiles to the byte it came from. -/
theorem compileUndoesDisassemble : Obligations.CompileUndoesDisassemble := by
  intro cfg bs hl
  have hdis : disassemble cfg ⟨bs, .eof⟩ OutStream.fresh = (.ok (), ⟨disassembly cfg bs, none⟩) :=
    disassembleFrom_eof cfg bs 0 []
  rw [hdis]
  exact ⟨rfl, by simpa [compile, OutStream.fresh] using compileFrom_disassembly hl bs 0 []⟩

/-- Settles O57: white space and a comment leave no word pending, and a comment fails at a high-bit byte only. -/
theorem blankLinesGiveNothing : Obligations.BlankLinesGiveNothing := by
  intro cfg blank comment hblank hnl
  obtain ⟨started, hs⟩ := exists_scans_whitespace (ts := []) hblank false
  refine ⟨?_, ?_⟩
  · simp only [assembleLine, LineState.fresh, hs.scanLine_eq, lineWords_closeLine_blank, assembleWords]
  · have hscan : scanLine LineState.fresh (blank ++ commentByte :: comment) = scanLine ⟨[], [], true, true⟩ comment := by
      rw [LineState.fresh, hs.scanLine_append, scanLine, scanByte_comment]
    rw [assembleLine, hscan, scanLine_comment rfl hnl]
    cases comment.any fun b => b.getLsbD 7 with
    | true => rfl
    | false => simp only [Bool.false_eq_true, if_false, lineWords_closeLine_blank, assembleWords]

/-- Settles O56: the tokenizer gives the canonical words back, and the parser reads each word as it was written. -/
theorem parseUndoesFormat : Obligations.ParseUndoesFormat := by
  intro cfg i hl hi
  obtain ⟨st, hs, hwords⟩ := exists_scans_formatInstr hl hi
  exact ⟨_, hs.scanLine_eq, by rw [hwords, parseWords_formatWords hl hi]⟩

/-- Settles O58: from any line on, a compile adds at most one byte a line, and the lines before an error compile alike alone. -/
theorem compileWritesAtMostOneByteALine : Obligations.CompileWritesAtMostOneByteALine := by
  intro cfg inp out
  refine ⟨?_, fun n e herr => ?_⟩
  · obtain ⟨bs, hsent, hcount⟩ := exists_compileFrom_sent cfg inp.ending inp.bytes LineState.fresh 1 out
    refine ⟨bs, hsent, ?_⟩
    rw [compile]
    cases hr : (compileFrom cfg inp.ending inp.bytes LineState.fresh 1 out).1 with
    | ok n => rw [hr] at hcount; exact Nat.le_of_succ_le_succ hcount
    | error p => rw [hr] at hcount; exact hcount
  · have hfails : compileFrom cfg inp.ending inp.bytes LineState.fresh 1 out = (.error (n, e), (compile cfg inp out).2) :=
      Prod.ext herr rfl
    rcases compileFrom_error hfails with ⟨rfl, hout⟩ | ⟨earlier, rest, htext, hcount, hlast, hcompile⟩
    · exact ⟨[], inp.bytes, rfl, rfl, .inl rfl, by rw [hout]; exact compileFrom_fresh_nil cfg 1 out⟩
    · exact ⟨earlier, rest, htext, hcount, .inr hlast, hcompile⟩

end Sys2Proof.Machine
end

section
/-! SUPPORT. The control words and their lines, what the datapath does with each, the pins they are wired to, and when the
codec and the machine cycle refuse: the facts that the statements on the control word (40_control_word.md) rest on. -/

namespace Sys2Proof.Machine

/-! ## Signal sets, line by line (R147, R148) -/

@[simp] theorem asserted_meet (a b : SignalSet) (sig : Signal) :
    asserted (meet a b) sig = (asserted a sig && asserted b sig) := by
  cases sig <;> simp [asserted, meet]

theorem meet_everySignal (a : SignalSet) : meet a everySignal = a := by
  simp only [meet, everySignal, BitVec.and_allOnes, Bool.and_true]

@[simp] theorem asserted_invertActiveLow (t : RevisionTables) (w : SignalSet) (sig : Signal) :
    asserted (invertActiveLow t w) sig = (asserted w sig ^^ asserted t.activeLow sig) := by
  cases sig <;> simp [asserted, invertActiveLow, symmDiffSet]

theorem asserted_revision1ActiveLow_iff (sig : Signal) :
    asserted revision1ActiveLow sig = true ↔ (∃ r, sig = .oe r) ∨ sig = .rst ∨ sig = .imm := by
  cases sig with
  | oe r => exact iff_of_true (BitVec.getLsbD_allOnes.trans (decide_eq_true r.isLt)) (.inl ⟨r, rfl⟩)
  | _ => simp [asserted, revision1ActiveLow, noSignals]

/-! ## At most one bus driver and one input enable (R144) -/

/-- R144's rule: at most one of the output enables and `IMM`, and at most one input enable. -/
structure OneDriver (w : SignalSet) : Prop where
  oe_eq : ∀ r r' : Fin 14, asserted w (.oe r) = true → asserted w (.oe r') = true → r = r'
  imm_of_oe : ∀ r : Fin 14, asserted w (.oe r) = true → asserted w .imm = false
  ie_eq : ∀ r r' : Fin 8, asserted w (.ie r) = true → asserted w (.ie r') = true → r = r'

/-- Leaving out signals keeps the rule. -/
theorem OneDriver.meet {a : SignalSet} (h : OneDriver a) (b : SignalSet) : OneDriver (meet a b) where
  oe_eq r r' hr hr' := by
    rw [asserted_meet, Bool.and_eq_true] at hr hr'
    exact h.oe_eq r r' hr.1 hr'.1
  imm_of_oe r hr := by
    rw [asserted_meet, Bool.and_eq_true] at hr
    rw [asserted_meet, h.imm_of_oe r hr.1, Bool.false_and]
  ie_eq r r' hr hr' := by
    rw [asserted_meet, Bool.and_eq_true] at hr hr'
    exact h.ie_eq r r' hr.1 hr'.1

theorem getLsbD_oeLine_iff (t : Reg4) (r : Fin 14) : (oeLine t).getLsbD r = true ↔ r.val = t.toNat := by
  revert t r
  decide

theorem getLsbD_ieLine_iff (d : Reg4) (r : Fin 8) : (ieLine d).getLsbD r = true ↔ r.val = d.toNat := by
  revert d r
  decide

/-- The lines that drive the bus: one output enable, or none with or without `IMM`. -/
theorem controlWord_oe (i : Instr) :
    ((∃ t, (controlWord i).oe = oeLine t) ∧ (controlWord i).imm = false) ∨ (controlWord i).oe = 0#14 := by
  cases i with
  | mov dst src =>
    simp only [controlWord, movWord]
    split
    · exact .inl ⟨⟨11#4, rfl⟩, rfl⟩
    · exact .inl ⟨⟨src, rfl⟩, rfl⟩
  | ldi dst imm => exact .inr rfl
  | jez t => exact .inl ⟨⟨t, rfl⟩, rfl⟩
  | jnz t => exact .inl ⟨⟨t, rfl⟩, rfl⟩
  | jni imm => exact .inr rfl
  | hlt => exact .inr rfl
  | rst => exact .inr rfl

theorem movWord_ie (dst src : Reg4) : (movWord dst src).ie = ieLine dst := by
  unfold movWord
  split <;> rfl

/-- The lines that load from the bus: one input enable or none. -/
theorem controlWord_ie (i : Instr) : (∃ d, (controlWord i).ie = ieLine d) ∨ (controlWord i).ie = 0#8 := by
  cases i with
  | mov dst src => exact .inl ⟨dst, movWord_ie dst src⟩
  | ldi dst imm => exact .inl ⟨dst, rfl⟩
  | jez t => exact .inl ⟨7#4, rfl⟩
  | jnz t => exact .inl ⟨7#4, rfl⟩
  | jni imm => exact .inl ⟨7#4, rfl⟩
  | hlt => exact .inr rfl
  | rst => exact .inr rfl

theorem oneDriver_controlWord (i : Instr) : OneDriver (controlWord i) where
  oe_eq r r' hr hr' := by
    rcases controlWord_oe i with ⟨⟨t, ht⟩, -⟩ | h0
    · rw [asserted, ht, getLsbD_oeLine_iff] at hr hr'
      exact Fin.ext (hr.trans hr'.symm)
    · simp [asserted, h0] at hr
  imm_of_oe r hr := by
    rcases controlWord_oe i with ⟨-, himm⟩ | h0
    · exact himm
    · simp [asserted, h0] at hr
  ie_eq r r' hr hr' := by
    rcases controlWord_ie i with ⟨d, hd⟩ | h0
    · rw [asserted, hd, getLsbD_ieLine_iff] at hr hr'
      exact Fin.ext (hr.trans hr'.symm)
    · simp [asserted, h0] at hr

/-- HLT and RST neither drive the bus nor load from it. -/
theorem asserted_controlWord_hlt_or_rst {i : Instr} (hi : i = .hlt ∨ i = .rst) :
    asserted (controlWord i) .imm = false ∧ (∀ r, asserted (controlWord i) (.oe r) = false) ∧
      ∀ r, asserted (controlWord i) (.ie r) = false := by
  rcases hi with rfl | rfl <;> simp [asserted, controlWord, hltWord, rstWord, noSignals]

/-- A control word is the instruction's own, but for the signals that the revision lacks. -/
theorem translateInstr_ok {cfg : Config} {i : Instr} {w : SignalSet} (h : translateInstr cfg i = .ok w) :
    ∃ t, revisionTables cfg = .ok t ∧ w = meet (controlWord i) t.inventory := by
  unfold translateInstr at h
  split at h
  · split at h
    · next t ht => cases h; exact ⟨t, ht, rfl⟩
    · cases h
  · cases h

/-! ## A control word on the datapath (R145) -/

theorem outputEnabled_of_oeLine {cw : SignalSet} {r : Reg4} (hoe : cw.oe = oeLine r) (hr : isRegister r = true) :
    outputEnabled cw = some r := by
  rw [outputEnabled, hoe]
  clear hoe
  revert r
  decide

theorem inputEnabled_of_ieLine {cw : SignalSet} {d : Reg4} (hie : cw.ie = ieLine d) (hd : d.toNat < 8) :
    inputEnabled cw = some d := by
  rw [inputEnabled, hie]
  clear hie
  revert d
  decide

/-- Every register but the difference drives the bus with what a read of it answers. -/
theorem driveReg_eq_readReg {r : Reg4} (hr : isRegister r = true) (hne : r ≠ 12#4) (cfg : Config)
    (earlier : List (Fin 6)) (s : State) : driveReg cfg earlier r s = readReg cfg earlier r s := by
  obtain ⟨n, hn⟩ := exists_regName hr
  have hdiff : ∀ r : Reg4, regName r = some .difference → r = 12#4 := by decide
  rw [driveReg_of_regName hn (fun h => hne (hdiff r (h ▸ hn))), readReg_of_regName hn]

section
variable (cfg : Config) (earlier : List (Fin 6)) (ir : Byte) (s : State)

theorem busValue_of_imm {cw : SignalSet} (himm : cw.imm = true) :
    busValue cfg earlier cw ir s = .ok (immValue (loField ir), s.noteReads earlier) := by
  simp only [busValue, himm, if_true]

theorem busValue_of_oeLine {cw : SignalSet} {r : Reg4} (himm : cw.imm = false) (hsub : cw.aluSub = false)
    (hoe : cw.oe = oeLine r) (hr : isRegister r = true) :
    busValue cfg earlier cw ir s = driveReg cfg earlier r s := by
  simp only [busValue, himm, hsub, outputEnabled_of_oeLine hoe hr, Bool.false_eq_true, if_false]
  split
  · next h => subst h; exact (driveReg_of_regName regName_sum (by decide) ..).symm
  · rfl

/-- The difference, which no output enable drives, is on the bus as the sum's output with `ALU_SUB` (R171). -/
theorem busValue_movWord (dst : Reg4) {src : Reg4} (hsrc : isRegister src = true) :
    busValue cfg earlier (movWord dst src) ir s = readReg cfg earlier src s := by
  by_cases h : src = 12#4
  · subst h
    have hout : outputEnabled (movWord dst 12#4) = some 11#4 := outputEnabled_of_oeLine rfl rfl
    rw [readReg_of_regName regName_difference, busValue, hout]
    rfl
  · rw [movWord, if_neg h, busValue_of_oeLine cfg earlier ir s rfl rfl rfl hsrc, driveReg_eq_readReg hsrc h]

theorem runControlWord_movWord {dst src : Reg4} (hdst : isWriteCapable dst = true) (hsrc : isRegister src = true) :
    runControlWord cfg (movWord dst src) ir s = movIn cfg dst src s := by
  have hlt : dst.toNat < 7 := of_decide_eq_true hdst
  have hvalid : isValid (.mov dst src) = true := by
    simp only [isValid, isRegister, Bool.and_eq_true]
    exact ⟨decide_eq_true (by omega), hsrc⟩
  have hin := inputEnabled_of_ieLine (movWord_ie dst src) (by omega)
  have hstop : (movWord dst src).rst = false ∧ (movWord dst src).hlt = false := by
    unfold movWord
    split <;> exact ⟨rfl, rfl⟩
  have h7 : dst ≠ 7#4 := by rintro rfl; cases hdst
  simp only [runControlWord, hin, hstop, h7, busValue_movWord cfg _ ir s dst hsrc, Bool.false_eq_true, if_false]
  exact (if_pos hvalid).symm

theorem runControlWord_ldiWord {dst : Reg4} (hdst : isWriteCapable dst = true) :
    runControlWord cfg (ldiWord dst) ir s = ldiIn cfg dst (loField ir) s := by
  have hlt : dst.toNat < 7 := of_decide_eq_true hdst
  have hvalid : isValid (.ldi dst (loField ir)) = true := decide_eq_true (by omega)
  have hin : inputEnabled (ldiWord dst) = some dst := inputEnabled_of_ieLine rfl (by omega)
  have h7 : dst ≠ 7#4 := by rintro rfl; cases hdst
  have hbus := busValue_of_imm cfg [] ir s (cw := ldiWord dst) rfl
  simp only [runControlWord, ldiIn, hvalid, hin, h7, hbus, State.noteReads_nil, if_true, if_false]
  rfl

/-- A jump's control word with either polarity runs as the jump through its register. -/
theorem runControlWord_jumpWord (jneg : Bool) {t : Reg4} (ht : isRegister t = true) :
    runControlWord cfg { jnzWord t with jneg := jneg } ir s = jumpReg cfg jneg t s := by
  have hin : inputEnabled { jnzWord t with jneg := jneg } = some 7#4 := inputEnabled_of_ieLine rfl (by decide)
  have hbus := busValue_of_oeLine cfg [conditionReg] ir s (cw := { jnzWord t with jneg := jneg }) rfl rfl rfl ht
  simp only [runControlWord, jumpReg, hin, hbus, ht, if_true]
  rfl

theorem runControlWord_jniWord : runControlWord cfg jniWord ir s = jniIn cfg (loField ir) s := by
  have hin : inputEnabled jniWord = some 7#4 := by decide
  have hbus := busValue_of_imm cfg [conditionReg] ir s (cw := jniWord) rfl
  simp only [runControlWord, hin, hbus, if_true]
  rfl

/-- The control word of a byte's instruction does on the datapath what the instruction's own rule says. -/
theorem runControlWord_of_layout {swap : Bool} {i : Instr} {b : Byte} (h : Layout swap i b) :
    runControlWord cfg (controlWord i) b s = execIn cfg i s := by
  obtain ⟨hvalid, hdst⟩ := Bool.and_eq_true_iff.mp h.wellFormed
  cases h with
  | mov d src => exact runControlWord_movWord cfg _ s hdst (Bool.and_eq_true_iff.mp hvalid).2
  | ldi d k => simp only [controlWord, execIn, runControlWord_ldiWord cfg _ s hdst, loField_fieldByte]
  | jez c h => exact runControlWord_jumpWord cfg _ s true hvalid
  | jnz t => exact runControlWord_jumpWord cfg _ s false hvalid
  | jni k => simp only [controlWord, execIn, runControlWord_jniWord, loField_fieldByte]
  | hlt => rfl
  | rst => rfl

end

/-! ## The revision's tables (R149) -/

theorem revisionTables_one {cfg : Config} (h : cfg.revision = .one) : revisionTables cfg = .ok (revision1Tables cfg) := by
  simp only [revisionTables, h]

theorem revisionTables_unsupplied {cfg : Config} (h : cfg.revision = .two) (hnone : suppliedTables cfg = none) :
    revisionTables cfg = .error .refusedRevision := by
  simp only [revisionTables, h, hnone]

theorem exists_revisionTables {cfg : Config} (h : cfg.revision = .two → suppliedTables cfg ≠ none) :
    ∃ t, revisionTables cfg = .ok t := by
  cases hrev : cfg.revision with
  | one => exact ⟨_, revisionTables_one hrev⟩
  | two =>
    obtain ⟨t, ht⟩ := Option.ne_none_iff_exists'.mp (h hrev)
    exact ⟨t, by simp only [revisionTables, hrev, ht]⟩

/-- Tables that invert as many signals as revision 1 does, or more, count as not supplied (log entry 34). -/
theorem suppliedTables_eq_none {cfg : Config} (h : ∀ t, cfg.rev2 = some t → 16 ≤ activeLowCount t) :
    suppliedTables cfg = none := by
  have hcount : signalCount revision1ActiveLow = 16 := by decide
  refine Option.filter_eq_none_iff.mpr fun t ht hallowed => ?_
  simp only [revision2Allowed, hcount, decide_eq_true_eq] at hallowed
  exact absurd (h t ht) (Nat.not_le.mpr hallowed)

theorem translateInstr_of_tables_error {cfg : Config} {e : CodecError} (h : revisionTables cfg = .error e) (i : Instr) :
    translateInstr cfg i = .error (if isValid i then e else .refusedInvalid) := by
  cases hi : isValid i <;> simp [translateInstr, hi, h]

theorem pinsOfByte_of_tables_error {cfg : Config} {e : CodecError} (h : revisionTables cfg = .error e) (b : Byte) :
    pinsOfByte cfg b = .error e := by
  simp only [pinsOfByte, h]

theorem romPage_of_pinsOfByte_error {cfg : Config} {e : CodecError} {b : Byte} (h : pinsOfByte cfg b = .error e)
    (p : Fin 3) : romPage cfg b p = .error e := by
  simp only [romPage, h]

/-! ## Pins (R150, R151, R161) -/

theorem mem_allSignals (sig : Signal) : sig ∈ allSignals := by
  cases sig with
  | oe r => revert r; decide
  | ie r => revert r; decide
  | aluSub => decide
  | jneg => decide
  | imm => decide
  | hlt => decide
  | rst => decide

/-- Under revision 1 a pin is 1 exactly when a signal wired to it is in the inverted set. -/
theorem pinLevel_revision1_iff (cfg : Config) (sigs : SignalSet) (n : Fin 24) :
    pinLevel (revision1Tables cfg) sigs n = true ↔ ∃ sig, cfg.pinOf sig = some n ∧ asserted sigs sig = true := by
  simp [pinLevel, revision1Tables, mem_allSignals]

theorem pinLevel_of_wired {cfg : Config} (hinj : PinsInjective cfg.pinOf) {sig : Signal} {n : Fin 24}
    (hsig : cfg.pinOf sig = some n) (sigs : SignalSet) : pinLevel (revision1Tables cfg) sigs n = asserted sigs sig := by
  rw [Bool.eq_iff_iff, pinLevel_revision1_iff]
  constructor
  · rintro ⟨other, hother, h⟩
    rwa [hinj sig other n hsig hother]
  · exact fun h => ⟨sig, hsig, h⟩

theorem pinLevel_of_unmapped {cfg : Config} {n : Fin 24} (h : ∀ sig, cfg.pinOf sig ≠ some n) (sigs : SignalSet) :
    pinLevel (revision1Tables cfg) sigs n = false := by
  rw [← Bool.not_eq_true, pinLevel_revision1_iff]
  rintro ⟨sig, hsig, -⟩
  exact h sig hsig

theorem getElem_mapToPins (t : RevisionTables) (sigs : SignalSet) (n : Fin 24) :
    (mapToPins t sigs)[n] = pinLevel t sigs n := by
  simp [mapToPins]

theorem translateInstr_decode {cfg : Config} (h : cfg.revision = .one) (b : Byte) :
    translateInstr cfg (decode cfg.hltRstSwap b) = .ok (controlWord (decode cfg.hltRstSwap b)) := by
  have hvalid := (Bool.and_eq_true_iff.mp (wellFormed_decode cfg.hltRstSwap b)).1
  rw [translateInstr_revisionOne h hvalid, meet_everySignal]

/-- The pin levels of a byte under revision 1. -/
def revision1Pins (cfg : Config) (b : Byte) : Vector Bool 24 :=
  mapToPins (revision1Tables cfg) (invertActiveLow (revision1Tables cfg) (controlWord (decode cfg.hltRstSwap b)))

theorem pinsOfByte_revisionOne {cfg : Config} (h : cfg.revision = .one) (b : Byte) :
    pinsOfByte cfg b = .ok (revision1Pins cfg b) := by
  simp only [pinsOfByte, revisionTables_one h, translateInstr_decode h, revision1Pins]

/-! ## Pin tables in which no two signals share a pin (R151, R152) -/

/-- Of two elements of a list, one comes before the other. -/
theorem mem_takeWhile_ne_or {α : Type} [DecidableEq α] {a b : α} (hne : a ≠ b) {l : List α} (ha : a ∈ l)
    (hb : b ∈ l) : a ∈ l.takeWhile (fun x => x != b) ∨ b ∈ l.takeWhile (fun x => x != a) := by
  induction l with
  | nil => cases ha
  | cons x xs ih =>
    by_cases hxa : x = a
    · subst hxa; simp [hne]
    · by_cases hxb : x = b
      · subst hxb; simp [hne.symm]
      · simpa [hxa, hxb, Ne.symm hxa, Ne.symm hxb] using
          ih (by simpa [Ne.symm hxa] using ha) (by simpa [Ne.symm hxb] using hb)

/-- A signal keeps its pin exactly when no earlier signal is sent to it. -/
theorem firstClaim_eq_some_iff (raw : Signal → Option (Fin 24)) (sig : Signal) (n : Fin 24) :
    firstClaim raw sig = some n ↔
      raw sig = some n ∧ ∀ other ∈ allSignals.takeWhile (fun x => x != sig), raw other ≠ some n := by
  unfold firstClaim
  cases hraw : raw sig with
  | none => simp
  | some m =>
    by_cases hm : m = n
    · subst hm; simp
    · simp [hm]

theorem pinsInjective_firstClaim (raw : Signal → Option (Fin 24)) : PinsInjective (firstClaim raw) := by
  intro a b n ha hb
  obtain ⟨hra, hfirst⟩ := (firstClaim_eq_some_iff raw a n).mp ha
  obtain ⟨hrb, hfirst'⟩ := (firstClaim_eq_some_iff raw b n).mp hb
  by_contra hne
  rcases mem_takeWhile_ne_or hne (mem_allSignals a) (mem_allSignals b) with h | h
  · exact hfirst' a h hra
  · exact hfirst b h hrb

theorem firstClaim_of_pinsInjective {raw : Signal → Option (Fin 24)} (h : PinsInjective raw) : firstClaim raw = raw := by
  funext sig
  refine Option.ext fun n => (firstClaim_eq_some_iff raw sig n).trans (and_iff_left_of_imp fun hsig other hother he => ?_)
  have hne := List.mem_takeWhile_imp hother
  simp [h other sig n he hsig] at hne

/-- Of the 27 signals at most 24 have a pin of their own. -/
theorem card_wired_le {pinOf : Signal → Option (Fin 24)} (h : PinsInjective pinOf) :
    (allSignals.toFinset.filter fun sig => pinOf sig ≠ none).card ≤ 24 := by
  have hpins : ((Finset.univ : Finset (Option (Fin 24))).erase none).card = 24 := by decide
  refine (Finset.card_le_card_of_injOn pinOf (fun sig hsig => ?_) fun a ha b _ hab => ?_).trans_eq hpins
  · simpa using (Finset.mem_filter.mp hsig).2
  · obtain ⟨n, hn⟩ := Option.ne_none_iff_exists'.mp (Finset.mem_filter.mp ha).2
    exact h a b n hn (hab ▸ hn)

/-! ## ROM pages (R153, R158) -/

/-- The width is written as the sum that the concatenation builds, so that its bits can be found part by part. -/
theorem getLsbD_byteOfBits (f : Fin 8 → Bool) (j : Fin 8) : (byteOfBits f).getLsbD j.val = f j := by
  unfold byteOfBits
  change BitVec.getLsbD (w := 1 + 1 + 1 + 1 + 1 + 1 + 1 + 1) _ _ = _
  simp only [BitVec.getLsbD_append]
  fin_cases j <;> simp

theorem pageByte_eq_iff (pins : Vector Bool 24) (p : Fin 3) (y : Byte) :
    pageByte pins p = y ↔ ∀ j : Fin 8, y.getLsbD j.val = pins[8 * p.val + j.val]'(by omega) := by
  have hbit : ∀ j : Fin 8, (pageByte pins p).getLsbD j.val = pins[8 * p.val + j.val]'(by omega) :=
    fun j => getLsbD_byteOfBits _ j
  constructor
  · rintro rfl
    exact hbit
  · intro h
    exact BitVec.eq_of_getLsbD_eq fun j hj => (hbit ⟨j, hj⟩).trans (h ⟨j, hj⟩).symm

theorem romPage_eq_ok_iff (cfg : Config) (b y : Byte) (p : Fin 3) :
    romPage cfg b p = .ok y ↔ ∃ pins, pinsOfByte cfg b = .ok pins ∧ pageByte pins p = y := by
  unfold romPage
  cases pinsOfByte cfg b <;> simp

theorem romPage_revisionOne {cfg : Config} (h : cfg.revision = .one) (b : Byte) (p : Fin 3) :
    romPage cfg b p = .ok (pageByte (revision1Pins cfg b) p) :=
  (romPage_eq_ok_iff ..).mpr ⟨_, pinsOfByte_revisionOne h b, rfl⟩

/-- Where every byte of a page is given, a page's bytes are those, in code order. -/
theorem romBytes_of_romPage {cfg : Config} {p : Fin 3} {f : Byte → Byte} (h : ∀ b, romPage cfg b p = .ok (f b))
    (n : Nat) : romBytes cfg p n = .ok ((List.range n).map fun k => f (BitVec.ofNat 8 k)) := by
  induction n with
  | zero => rfl
  | succ n ih => simp [romBytes, ih, h, List.range_succ]

theorem romBytes_of_romPage_error {cfg : Config} {p : Fin 3} {e : CodecError} (h : ∀ b, romPage cfg b p = .error e)
    (n : Nat) : romBytes cfg p (n + 1) = .error e := by
  induction n with
  | zero => simp only [romBytes, h]
  | succ n ih => rw [romBytes, ih]

theorem pageOfSelector_lt {selector : Nat} (h : selector < 3) : pageOfSelector selector = some ⟨selector, h⟩ := dif_pos h

theorem pageOfSelector_ge {selector : Nat} (h : 3 ≤ selector) : pageOfSelector selector = none := dif_neg (Nat.not_lt.mpr h)

/-! ## A refused machine cycle (R149, R264) -/

theorem stepIn_of_romRefusal {cfg : Config} {s : State} {r : Refusal} (hreset : s.extReset = false)
    (hhalt : s.halted = false) (h : romRefusal cfg s = some r) : stepIn cfg s = .refused r := by
  simp [stepIn, cycle, hreset, hhalt, h]

theorem romRefusal_unsupplied {cfg : Config} {e : CodecError} (h : revisionTables cfg = .error e) (s : State) :
    romRefusal cfg s = some .revisionNotSupplied := by
  simp only [romRefusal, h]

/-- Where the revision's tables are supplied, the pages are refused exactly when they are not ready. -/
theorem romRefusal_of_not_romReady {cfg : Config} {s : State} (ht : ∃ t, revisionTables cfg = .ok t)
    (h : ¬ s.RomReady cfg) : romRefusal cfg s = some .romPagesDiffer := by
  obtain ⟨t, ht⟩ := ht
  rw [← romRefusal_eq_none_iff] at h
  simp only [romRefusal, ht] at h ⊢
  split at h
  · exact absurd rfl h
  · next hpages => exact if_neg hpages

end Sys2Proof.Machine
end

section
/-! PROOF. The statements on the control word, the pins and the control-ROM pages. -/

namespace Sys2Proof.Machine

/-- Settles O43: the word of each instruction in the byte layout, run on the datapath, is the instruction's meaning. -/
theorem controlWordDrivesTheMachine : Obligations.ControlWordDrivesTheMachine := fun cfg b hone =>
  ⟨_, translateInstr_decode hone b, fun s => runControlWord_of_layout cfg s (layout_decode cfg.hltRstSwap b)⟩

/-- Settles O47: every instruction's own word keeps the rule, and a revision only leaves signals out of it. -/
theorem busDiscipline : Obligations.BusDiscipline := by
  intro cfg b w hw
  obtain ⟨t, -, rfl⟩ := translateInstr_ok hw
  have hone := (oneDriver_controlWord (decode cfg.hltRstSwap b)).meet t.inventory
  refine ⟨hone.oe_eq, hone.imm_of_oe, hone.ie_eq, fun hstop => ?_⟩
  obtain ⟨himm, hoe, hie⟩ := asserted_controlWord_hlt_or_rst hstop
  simp [himm, hoe, hie]

/-- Settles O49: an injective table wires one signal to a pin at most, so the pin has that signal's inverted level. -/
theorem wiredPinLevels : Obligations.WiredPinLevels := by
  intro cfg b hone hinj
  refine ⟨_, _, translateInstr_decode hone b, pinsOfByte_revisionOne hone b, fun sig n hsig => ?_, fun n hn => ?_⟩
  · have hlow : asserted (revision1Tables cfg).activeLow sig =
        decide ((∃ r, sig = .oe r) ∨ sig = .rst ∨ sig = .imm) := by
      rw [Bool.eq_iff_iff, decide_eq_true_iff]
      exact asserted_revision1ActiveLow_iff sig
    rw [revision1Pins, getElem_mapToPins, pinLevel_of_wired hinj hsig, asserted_invertActiveLow, hlow]
  · rw [revision1Pins, getElem_mapToPins, pinLevel_of_unmapped hn]

/-- Settles O50, by counting: 27 signals, of which at most 24 have a pin. -/
theorem atLeastThreeSignalsUnwired : Obligations.AtLeastThreeSignalsUnwired := by
  intro pinOf hinj
  have hall : allSignals.toFinset.card = 27 := by decide
  have hwired := card_wired_le hinj
  have hsplit := Finset.card_filter_add_card_filter_not (s := allSignals.toFinset) fun sig => pinOf sig ≠ none
  obtain ⟨a, ha, b, hb, c, hc, hab, hac, hbc⟩ :=
    Finset.two_lt_card.mp (show 2 < (allSignals.toFinset.filter fun sig => ¬ pinOf sig ≠ none).card by omega)
  simp only [Finset.mem_filter, not_not] at ha hb hc
  exact ⟨a, b, c, hab, hac, hbc, ha.2, hb.2, hc.2⟩

/-- Settles O51: of two signals sent to one pin, the one that comes later in the order loses it. -/
theorem defaultPinTableIsInjective : Obligations.DefaultPinTableIsInjective :=
  ⟨pinsInjective_firstClaim _, fun raw => ⟨pinsInjective_firstClaim raw, firstClaim_of_pinsInjective⟩⟩

/-- Settles O53: under revision 1 every byte of a page is given, and an output without limit takes them all. -/
theorem generatedRomPage : Obligations.GeneratedRomPage := by
  intro cfg selector out
  refine ⟨fun h => by simp only [generateRomPage, pageOfSelector_ge h], fun h hone hroom => ?_⟩
  obtain ⟨sent, room⟩ := out
  subst hroom
  have hpage := fun b => romPage_revisionOne hone b ⟨selector, h⟩
  refine ⟨(List.range 256).map fun k => pageByte (revision1Pins cfg (BitVec.ofNat 8 k)) ⟨selector, h⟩, ?_, ?_,
    fun b => ⟨_, ?_, hpage b⟩⟩
  · simp
  · simp only [generateRomPage, pageOfSelector_lt h, romBytes_of_romPage hpage, OutStream.putAll_unbounded]
  · simp [b.isLt]

/-- Settles O10: without tables the revision is refused, and with them a differing byte makes the pages unready. -/
theorem unusableRomPagesRefuse : Obligations.UnusableRomPagesRefuse := by
  intro cfg s hreset hhalt
  refine ⟨fun htwo hnone => ?_, fun p b htables hdiffer => ?_⟩
  · exact stepIn_of_romRefusal hreset hhalt (romRefusal_unsupplied (revisionTables_unsupplied htwo hnone) s)
  · exact stepIn_of_romRefusal hreset hhalt
      (romRefusal_of_not_romReady (exists_revisionTables htables) fun hready => hdiffer (hready.2 p b))

/-- Settles O48, signal by signal. -/
theorem activeLowInversion : Obligations.ActiveLowInversion :=
  ⟨asserted_invertActiveLow, asserted_revision1ActiveLow_iff⟩

/-- Settles O52: a page's byte is determined by its bits. -/
theorem romPageBitsArePins : Obligations.RomPageBitsArePins := by
  intro cfg b y p
  simp only [romPage_eq_ok_iff, pageByte_eq_iff]

/-- Settles O54: every codec function asks for the revision's tables first, `translate` after `is_valid`. -/
theorem revisionTwoNeedsTables : Obligations.RevisionTwoNeedsTables := by
  intro cfg b htwo hmany
  have htables := revisionTables_unsupplied htwo (suppliedTables_eq_none hmany)
  have hpage := fun b => romPage_of_pinsOfByte_error (pinsOfByte_of_tables_error htables b)
  refine ⟨translateInstr_of_tables_error htables, pinsOfByte_of_tables_error htables b, hpage b, fun selector out h => ?_⟩
  have hbytes := romBytes_of_romPage_error (fun b => hpage b ⟨selector, h⟩) 255
  simp only [generateRomPage, pageOfSelector_lt h, hbytes]

end Sys2Proof.Machine
end

section
/-! SUPPORT. The effect of MOV and LDI by source and destination, what the parts of an instruction leave unchanged, and which
signals a control word asserts: the facts that the statements on data movement (41_data_movement.md) rest on. -/

namespace Sys2Proof.Machine

/-! ## The effect of MOV and LDI (R170, R175) -/

/-- One register read reports itself where it is unwritten. -/
theorem firstUnwritten_singleton (s : State) (k : Fin 6) :
    firstUnwritten s [k] = if s.written[k] then none else some (.unwrittenRegister k) := by
  cases h : s.written[k.val] <;> simp [firstUnwritten, h]

theorem writeReg_storeId {cfg : Config} (hm : cfg.memcellMapped = false) (d : Fin 6) (v : Byte) (s : State) :
    writeReg cfg (storeId d) v s = .ok (s.setStore d v) := by
  simp [writeReg, hm]

theorem isRegister_of_isWriteCapable {r : Reg4} (h : isWriteCapable r = true) : isRegister r = true := by
  revert r; decide

theorem isWriteCapable_storeId (d : Fin 6) : isWriteCapable (storeId d) = true := by
  revert d; decide

/-- MOV into a storage register, whatever register the source names. -/
theorem exec_mov_storeId (d : Fin 6) {src : Reg4} {n : RegName} (hn : regName src = some n) (s : State) :
    exec (.mov (storeId d) src) s =
      .next { s with regs := s.regs.set d (readValue defaultConfig s n), written := s.written.set d true, pc := s.pc + 1#8,
                     faulted := s.faulted.or (firstUnwritten s (readSet defaultConfig n)),
                     draws := if readDraws n then s.draws + 1 else s.draws } := by
  have hvalid : isValid (.mov (storeId d) src) = true :=
    Bool.and_eq_true_iff.mpr ⟨isRegister_of_isWriteCapable (isWriteCapable_storeId d), isRegister_of_regName hn⟩
  have hread := (readReg_of_regName hn ..).trans (readNamed_default [] n s)
  have hwrite := writeReg_storeId defaultConfig_memcellMapped d (readValue defaultConfig s n)
    (s.afterRead (readSet defaultConfig n) (readDraws n))
  exact (movIn_eq_next_iff ..).mpr ⟨hvalid, _, _, _, hread, hwrite, rfl⟩

/-- LDI into a write-capable register is the write of the immediate's value and the advance. -/
theorem exec_ldi_of_writeReg {d : Reg4} (hd : isWriteCapable d = true) {k : Imm4} {s s1 : State}
    (hw : writeReg defaultConfig d (immValue k) s = .ok s1) : exec (.ldi d k) s = .next s1.advance :=
  (ldiIn_eq_next_iff ..).mpr ⟨isRegister_of_isWriteCapable hd, s1, hw, rfl⟩

/-! ## What MOV and LDI leave unchanged -/

/-- From `s` to `t` only the storage register that `d` names, `pc`, the fault record and the free-value count may differ, and
a recorded fault stays. -/
structure UnchangedBut (d : Reg4) (s t : State) : Prop where
  stores : ∀ k : Fin 6, storeId k ≠ d → t.regs[k] = s.regs[k] ∧ t.written[k] = s.written[k]
  halted : t.halted = s.halted
  rom : t.rom = s.rom
  extReset : t.extReset = s.extReset
  faulted : s.faulted ≠ none → t.faulted = s.faulted
  imem : t.imem = s.imem

theorem UnchangedBut.trans {d : Reg4} {s u t : State} (hsu : UnchangedBut d s u) (hut : UnchangedBut d u t) :
    UnchangedBut d s t where
  stores k hk := ⟨(hut.stores k hk).1.trans (hsu.stores k hk).1, (hut.stores k hk).2.trans (hsu.stores k hk).2⟩
  halted := hut.halted.trans hsu.halted
  rom := hut.rom.trans hsu.rom
  extReset := hut.extReset.trans hsu.extReset
  faulted hs := by
    have hu := hsu.faulted hs
    exact (hut.faulted (hu ▸ hs)).trans hu
  imem := hut.imem.trans hsu.imem

theorem State.advance_unchangedBut (d : Reg4) (s : State) : UnchangedBut d s s.advance :=
  ⟨fun _ _ => ⟨rfl, rfl⟩, rfl, rfl, rfl, fun _ => rfl, rfl⟩

/-- A read changes no register; what it reports is recorded only where nothing was. -/
theorem readReg_unchangedBut {cfg : Config} {earlier : List (Fin 6)} {r : Reg4} {s s1 : State} {v : Byte}
    (h : readReg cfg earlier r s = .ok (v, s1)) (d : Reg4) : UnchangedBut d s s1 := by
  obtain ⟨n, -, -, rfl⟩ := readReg_ok h
  refine ⟨fun _ _ => ⟨rfl, rfl⟩, rfl, rfl, rfl, fun hs => ?_, rfl⟩
  obtain ⟨f, hf⟩ := Option.ne_none_iff_exists'.mp hs
  simp [hf]

theorem eq_storeId_of_regName {r : Reg4} {k : Fin 6} (h : regName r = some (.store k)) : r = storeId k := by
  revert r k; decide

/-- A write changes the register it names only. -/
theorem writeReg_unchangedBut {cfg : Config} {d : Reg4} {v : Byte} {s s1 : State} (h : writeReg cfg d v s = .ok s1) :
    UnchangedBut d s s1 := by
  rcases writeReg_ok h with ⟨j, hj, rfl⟩ | ⟨-, rfl⟩
  · obtain rfl := eq_storeId_of_regName hj
    refine ⟨fun k hk => ?_, rfl, rfl, rfl, fun _ => rfl, rfl⟩
    have hne : j.val ≠ k.val := fun hjk => hk (congrArg storeId (Fin.ext hjk.symm))
    exact ⟨Vector.getElem_set_ne j.isLt k.isLt hne, Vector.getElem_set_ne j.isLt k.isLt hne⟩
  · exact ⟨fun _ _ => ⟨rfl, rfl⟩, rfl, rfl, rfl, fun _ => rfl, rfl⟩

theorem movIn_unchangedBut {cfg : Config} {dst src : Reg4} {s t : State} (h : movIn cfg dst src s = .next t) :
    UnchangedBut dst s t := by
  obtain ⟨-, v, s1, s2, hread, hwrite, rfl⟩ := (movIn_eq_next_iff ..).mp h
  exact ((readReg_unchangedBut hread dst).trans (writeReg_unchangedBut hwrite)).trans (s2.advance_unchangedBut dst)

theorem ldiIn_unchangedBut {cfg : Config} {dst : Reg4} {imm : Imm4} {s t : State} (h : ldiIn cfg dst imm s = .next t) :
    UnchangedBut dst s t := by
  obtain ⟨-, s1, hwrite, rfl⟩ := (ldiIn_eq_next_iff ..).mp h
  exact (writeReg_unchangedBut hwrite).trans (s1.advance_unchangedBut dst)

/-! ## The signals of a control word (R171, R176) -/

theorem isRegister_ofNat {n : Nat} (h : n < 14) : isRegister (BitVec.ofNat 4 n) = true := by
  simp [isRegister, Nat.mod_eq_of_lt (show n < 16 by omega), h]

/-- Under revision 1 a valid instruction's control word is the one its rule gives. -/
theorem translateInstr_eq_controlWord {cfg : Config} (h : cfg.revision = .one) {i : Instr} (hi : isValid i = true) :
    translateInstr cfg i = .ok (controlWord i) := by
  rw [translateInstr_revisionOne h hi, meet_everySignal]

theorem asserted_oe_iff {w : SignalSet} {r : Fin 14} (h : w.oe = oeLine (BitVec.ofNat 4 r.val)) (r' : Fin 14) :
    asserted w (.oe r') = true ↔ r' = r := by
  rw [asserted, h, getLsbD_oeLine_iff, BitVec.toNat_ofNat, Nat.mod_eq_of_lt (by omega), Fin.ext_iff]

theorem asserted_ie_iff {w : SignalSet} {d : Fin 8} (h : w.ie = ieLine (BitVec.ofNat 4 d.val)) (d' : Fin 8) :
    asserted w (.ie d') = true ↔ d' = d := by
  rw [asserted, h, getLsbD_ieLine_iff, BitVec.toNat_ofNat, Nat.mod_eq_of_lt (by omega), Fin.ext_iff]

/-- The control word that drives register `r` onto the bus and loads register `d` from it: MOV's, with `ALU_SUB` for the
difference (R171), and, with `JNEG` or without, a register jump's (R191, R196). -/
def transferWord (r : Fin 14) (d : Fin 8) (sub neg : Bool) : SignalSet :=
  { noSignals with oe := oeLine (BitVec.ofNat 4 r.val), ie := ieLine (BitVec.ofNat 4 d.val), aluSub := sub, jneg := neg }

theorem asserted_transferWord_iff (r : Fin 14) (d : Fin 8) (sub neg : Bool) (sig : Signal) :
    asserted (transferWord r d sub neg) sig = true ↔
      sig = .oe r ∨ sig = .ie d ∨ (sig = .aluSub ∧ sub = true) ∨ (sig = .jneg ∧ neg = true) := by
  cases sig with
  | oe r' => exact (asserted_oe_iff rfl r').trans (by simp)
  | ie d' => exact (asserted_ie_iff rfl d').trans (by simp)
  | _ => simp [asserted, transferWord, noSignals]

/-- R171: the difference, id 12, is the sum's output enable with `ALU_SUB`. -/
theorem movWord_eq_transferWord (d : Fin 8) (r : Fin 14) :
    movWord (BitVec.ofNat 4 d.val) (BitVec.ofNat 4 r.val) =
      if r = 12 then transferWord 11 d true false else transferWord r d false false := by
  by_cases hr : r = 12
  · subst hr
    rfl
  · have hne : BitVec.ofNat 4 r.val ≠ 12#4 := by revert r; decide
    rw [movWord, if_neg hne, if_neg hr]
    rfl

theorem asserted_movWord_iff (d : Fin 8) (r : Fin 14) (sig : Signal) :
    asserted (movWord (BitVec.ofNat 4 d.val) (BitVec.ofNat 4 r.val)) sig = true ↔
      if r = 12 then sig = .oe 11 ∨ sig = .aluSub ∨ sig = .ie d else sig = .oe r ∨ sig = .ie d := by
  rw [movWord_eq_transferWord]
  split
  · simp [asserted_transferWord_iff, or_comm (a := sig = .ie d)]
  · simp [asserted_transferWord_iff]

theorem asserted_ldiWord_iff (d : Fin 8) (sig : Signal) :
    asserted (ldiWord (BitVec.ofNat 4 d.val)) sig = true ↔ sig = .imm ∨ sig = .ie d := by
  cases sig with
  | ie d' => exact (asserted_ie_iff rfl d').trans (by simp)
  | _ => simp [asserted, ldiWord, noSignals]

end Sys2Proof.Machine
end

section
/-! PROOF. The statements on MOV and LDI. -/

namespace Sys2Proof.Machine

/-- Settles O29: the read, the write and the advance each keep the frame. -/
theorem movAndLdiFrame : Obligations.MovAndLdiFrame := by
  intro i d s t hi hexec
  rw [exec_eq_execIn] at hexec
  have h : UnchangedBut d s t := by
    rcases hi with ⟨src, rfl⟩ | ⟨k, rfl⟩
    · exact movIn_unchangedBut hexec
    · exact ldiIn_unchangedBut hexec
  exact ⟨h.stores, h.halted, h.rom, h.extReset, h.faulted, fun a => by rw [h.imem]⟩

/-- Settles O44: under revision 1 the control word is the rule's own, which one output enable or `IMM` and one input enable
make up. -/
theorem controlWordsOfMovAndLdi : Obligations.ControlWordsOfMovAndLdi := by
  intro cfg d r k hone
  have hd : isRegister (BitVec.ofNat 4 d.val) = true := isRegister_ofNat (by omega)
  refine ⟨⟨_, translateInstr_eq_controlWord hone (Bool.and_eq_true_iff.mpr ⟨hd, isRegister_ofNat r.isLt⟩), ?_⟩,
    ⟨_, translateInstr_eq_controlWord hone hd, ?_⟩⟩
  · exact asserted_movWord_iff ⟨d.val, by omega⟩ r
  · exact asserted_ldiWord_iff ⟨d.val, by omega⟩

/-- Settles O11: a storage register reads its own value and reports itself. -/
theorem movBetweenStorage : Obligations.MovBetweenStorage := by
  intro d k s
  simp [exec_mov_storeId d (regName_storeId k), readValue, readSet, readDraws, firstUnwritten_singleton]

/-- Settles O12: the value is that of the state before the write. -/
theorem movFromSumAndDifference : Obligations.MovFromSumAndDifference := by
  intro d s
  constructor
  · simp [exec_mov_storeId d regName_sum, readValue, readSet, readDraws]
  · simp [exec_mov_storeId d regName_difference, readValue, readSet, readDraws]

/-- Settles O13: neither source reads a storage register. -/
theorem movFromPcAndZero : Obligations.MovFromPcAndZero := by
  intro d s
  constructor
  · simp [exec_mov_storeId d regName_pc, readValue, readSet, readDraws]
  · simp [exec_mov_storeId d regName_zero, readValue, readSet, readDraws]

/-- Settles O14: the defaults of `JE_FN`, and the free `SHIFT_FN` with the registers it reads. -/
theorem movFromJumpEnableAndShift : Obligations.MovFromJumpEnableAndShift := by
  intro d s
  constructor
  · simp [exec_mov_storeId d regName_jumpEnable, readValue, readSet, readDraws]
  · simp [exec_mov_storeId d regName_shift, readValue, readSet, readDraws]

/-- Settles O15: these two reads take a free value and report nothing. -/
theorem movFromDrawnRegisters : Obligations.MovFromDrawnRegisters := by
  intro d s
  constructor
  · simp [exec_mov_storeId d regName_sink, readValue, readSet, readDraws]
  · simp [exec_mov_storeId d regName_input, readValue, readSet, readDraws]

/-- Settles O18: an id 0 to 5 is written with the immediate's value, and a write to id 6 leaves the state. -/
theorem ldiWritesImmediate : Obligations.LdiWritesImmediate := by
  intro k s
  rw [← immValue_eq_ofNat]
  constructor
  · intro d
    exact exec_ldi_of_writeReg (isWriteCapable_storeId d) (writeReg_storeId defaultConfig_memcellMapped d (immValue k) s)
  · exact exec_ldi_of_writeReg (by decide) rfl

end Sys2Proof.Machine
end

section
/-! SUPPORT. The effect of JEZ, JNZ and JNI where they are taken and where they are not, and what a jump leaves unchanged: the
facts that the statements on control transfer (42_control_transfer.md) rest on. -/

namespace Sys2Proof.Machine

/-! ## The effect of the jumps (R192, R194, R195, R198, R200, R203) -/

/-- What jumps of either polarity do where they are taken, JEZ and JNZ do by the condition register (R195, R198). -/
theorem exec_jumps_of_taken {r : Reg4} {s u : State}
    (h : ∀ jneg, taken defaultConfig jneg s = true → jumpReg defaultConfig jneg r s = .next u) :
    (s.regs[1] = 0#8 → exec (.jez r) s = .next u) ∧ (s.regs[1] ≠ 0#8 → exec (.jnz r) s = .next u) :=
  ⟨fun hz => h true (by simp [taken_default_jez, hz]), fun hnz => h false (by simp [taken_default_jnz, hnz])⟩

/-- What jumps of either polarity do where they are not taken, JEZ and JNZ do by the condition register (R203). -/
theorem exec_jumps_of_not_taken {r : Reg4} {s u : State}
    (h : ∀ jneg, taken defaultConfig jneg s = false → jumpReg defaultConfig jneg r s = .next u) :
    (s.regs[1] ≠ 0#8 → exec (.jez r) s = .next u) ∧ (s.regs[1] = 0#8 → exec (.jnz r) s = .next u) :=
  ⟨fun hnz => h true (by simp [taken_default_jez, hnz]), fun hz => h false (by simp [taken_default_jnz, hz])⟩

/-- A taken jump through any register but the difference: its target is read after the condition register. -/
theorem jumpReg_of_taken {jneg : Bool} {r : Reg4} {n : RegName} {s : State} (hn : regName r = some n) (hne : n ≠ .difference)
    (ht : taken defaultConfig jneg s = true) :
    jumpReg defaultConfig jneg r s =
      .next { s with pc := readValue defaultConfig s n,
                     faulted := s.faulted.or (firstUnwritten s (1 :: readSet defaultConfig n)),
                     draws := if readDraws n then s.draws + 1 else s.draws } := by
  have hdrive := (driveReg_of_regName hn hne ..).trans (readNamed_default [conditionReg] n s)
  exact (jumpReg_eq_next_iff ..).mpr ⟨isRegister_of_regName hn, .inl ⟨ht, _, _, hdrive, rfl⟩⟩

/-- A taken jump through the difference goes to a free value (R194). -/
theorem jumpReg_difference_of_taken {jneg : Bool} {s : State} (ht : taken defaultConfig jneg s = true) :
    jumpReg defaultConfig jneg 12#4 s =
      .next { s with pc := defaultConfig.draw s.draws, faulted := s.faulted.or (firstUnwritten s [1]), draws := s.draws + 1 } :=
  (jumpReg_eq_next_iff ..).mpr ⟨rfl, .inl ⟨ht, _, _, driveReg_of_difference regName_difference .., rfl⟩⟩

/-- JNI goes on from the read of the condition register to its immediate or past itself (R200). -/
theorem jniIn_eq (cfg : Config) (imm : Imm4) (s : State) :
    jniIn cfg imm s =
      .next ((s.noteReads [conditionReg]).jumpTo (if taken cfg false s then immValue imm else s.pc + 1#8)) := by
  cases ht : taken cfg false s <;> simp [jniIn, ht, State.jumpTo, State.advance]

/-! ## What the jumps leave unchanged (R193) -/

theorem State.afterRead_keeps_fault {s : State} (hs : s.faulted ≠ none) (ks : List (Fin 6)) (drew : Bool) :
    (s.afterRead ks drew).faulted = s.faulted :=
  Option.or_of_isSome (Option.isSome_iff_ne_none.mpr hs)

theorem driveReg_eq_afterRead {cfg : Config} {earlier : List (Fin 6)} {r : Reg4} {s s1 : State} {v : Byte}
    (h : driveReg cfg earlier r s = .ok (v, s1)) : ∃ ks drew, s1 = s.afterRead ks drew := by
  rcases driveReg_ok h with ⟨-, -, rfl⟩ | ⟨n, -, -, -, rfl⟩
  · exact ⟨_, _, rfl⟩
  · exact ⟨_, _, rfl⟩

/-- A jump reads registers and sets `pc`, whether it is taken or not. -/
theorem jumpReg_eq_afterRead_jumpTo {cfg : Config} {jneg : Bool} {r : Reg4} {s t : State}
    (h : jumpReg cfg jneg r s = .next t) : ∃ ks drew v, t = (s.afterRead ks drew).jumpTo v := by
  rcases jumpReg_next h with ⟨-, v, s1, hd, rfl⟩ | ⟨-, rfl⟩
  · obtain ⟨ks, drew, rfl⟩ := driveReg_eq_afterRead hd
    exact ⟨ks, drew, v, rfl⟩
  · exact ⟨[conditionReg], false, s.pc + 1#8, rfl⟩

end Sys2Proof.Machine
end

section
/-! PROOF. The statements on JEZ, JNZ and JNI. -/

namespace Sys2Proof.Machine

/-- Settles O30: a jump is a read followed by a write of `pc`. -/
theorem jumpFrame : Obligations.JumpFrame := by
  intro i s t hi hexec
  rw [exec_eq_execIn] at hexec
  have hjump : ∃ ks drew v, t = (s.afterRead ks drew).jumpTo v := by
    rcases hi with ⟨r, rfl⟩ | ⟨r, rfl⟩ | ⟨k, rfl⟩
    · exact jumpReg_eq_afterRead_jumpTo hexec
    · exact jumpReg_eq_afterRead_jumpTo hexec
    · exact ⟨[conditionReg], false, _, Host.Outcome.next.inj (hexec.symm.trans (jniIn_eq ..))⟩
  obtain ⟨ks, drew, v, rfl⟩ := hjump
  exact ⟨rfl, rfl, rfl, rfl, rfl, fun hs => State.afterRead_keeps_fault hs ks drew, fun _ => rfl⟩

/-- Settles O45: the words of JEZ and JNZ carry a register to `pc`, with `JNEG` or without, and that of JNI is an LDI's into
`pc`. -/
theorem controlWordsOfJumps : Obligations.ControlWordsOfJumps := by
  intro cfg t k hone
  have ht : isRegister (BitVec.ofNat 4 t.val) = true := isRegister_ofNat t.isLt
  refine ⟨⟨_, translateInstr_eq_controlWord hone ht, fun sig => ?_⟩, ⟨_, translateInstr_eq_controlWord hone ht, fun sig => ?_⟩,
    ⟨_, translateInstr_eq_controlWord hone rfl, asserted_ldiWord_iff 7⟩⟩
  · exact (asserted_transferWord_iff t 7 false true sig).trans (by simp)
  · exact (asserted_transferWord_iff t 7 false false sig).trans (by simp)

/-- Settles O19: the target is a storage register, which reads its own value and reports itself. -/
theorem takenJumpThroughStorage : Obligations.TakenJumpThroughStorage := fun k _ =>
  exec_jumps_of_taken fun _ => jumpReg_of_taken (regName_storeId k) nofun

/-- Settles O20: each of the five targets is read as its register, and none takes a free value. -/
theorem takenJumpThroughDerived : Obligations.TakenJumpThroughDerived := by
  intro s t v reads h
  simp only [List.mem_cons, List.not_mem_nil, Prod.mk.injEq, or_false] at h
  rcases h with ⟨rfl, rfl, rfl⟩ | ⟨rfl, rfl, rfl⟩ | ⟨rfl, rfl, rfl⟩ | ⟨rfl, rfl, rfl⟩ | ⟨rfl, rfl, rfl⟩
  · exact exec_jumps_of_taken fun _ => jumpReg_of_taken regName_pc nofun
  · rw [← jumpEnable_default]
    exact exec_jumps_of_taken fun _ => jumpReg_of_taken regName_jumpEnable nofun
  · exact exec_jumps_of_taken fun _ => jumpReg_of_taken regName_shift nofun
  · exact exec_jumps_of_taken fun _ => jumpReg_of_taken regName_sum nofun
  · exact exec_jumps_of_taken fun _ => jumpReg_of_taken regName_zero nofun

/-- Settles O21: the difference is not driven by its output enable, and ids 6 and 8 read as free values. -/
theorem takenJumpToFreeTarget : Obligations.TakenJumpToFreeTarget := by
  intro s t v h
  simp only [List.mem_cons, List.not_mem_nil, Prod.mk.injEq, or_false] at h
  rcases h with ⟨rfl, rfl⟩ | ⟨rfl, rfl⟩ | ⟨rfl, rfl⟩
  · exact exec_jumps_of_taken fun _ => jumpReg_difference_of_taken
  · exact exec_jumps_of_taken fun _ => jumpReg_of_taken regName_sink nofun
  · exact exec_jumps_of_taken fun _ => jumpReg_of_taken regName_input nofun

/-- Settles O22: only the condition register is read. -/
theorem untakenJumpAdvances : Obligations.UntakenJumpAdvances := fun _ _ ht =>
  exec_jumps_of_not_taken fun _ hnot => (jumpReg_eq_next_iff ..).mpr ⟨decide_eq_true ht, .inr ⟨hnot, rfl⟩⟩

/-- Settles O23: JNI's condition is that of JNZ, and its immediate is zero-extended. -/
theorem jniJumpsToImmediate : Obligations.JniJumpsToImmediate := by
  intro k s
  rw [exec_eq_execIn, execIn, jniIn_eq, immValue_eq_ofNat, taken_default_jnz]
  simp [State.jumpTo, State.noteReads, conditionReg]

end Sys2Proof.Machine
end

section
/-! SUPPORT. What HLT, RST and an external reset change that no other instruction does: which machine cycles change the halted
flag or forget a written register, and the control words of HLT and RST: the facts that the statements on machine control
(43_machine_control.md) rest on. -/

namespace Sys2Proof.Machine

/-! ## The halted flag and the written registers over a cycle (R210, R215, R243) -/

/-- From `s` to `t` the halted flag is unchanged and no written register becomes unwritten. -/
structure KeepsHaltAndWritten (s t : State) : Prop where
  halted : t.halted = s.halted
  written : ∀ k : Fin 6, s.written[k] = true → t.written[k] = true

/-- A write to a storage register leaves every written register written. -/
theorem State.setStore_keeps_written {s : State} {j : Fin 6} (hj : s.written[j] = true) (k : Fin 6) (v : Byte) :
    (s.setStore k v).written[j] = true := by
  simp only [State.setStore_written, Fin.getElem_fin, Vector.getElem_set]
  split
  · rfl
  · exact hj

theorem movIn_keepsHaltAndWritten {cfg : Config} {dst src : Reg4} {s t : State} (h : movIn cfg dst src s = .next t) :
    KeepsHaltAndWritten s t := by
  obtain ⟨n, -, ⟨k, -, rfl⟩ | ⟨-, rfl⟩⟩ := movIn_next h
  · exact ⟨rfl, fun _ hj => State.setStore_keeps_written hj k (readValue cfg s n)⟩
  · exact ⟨rfl, fun _ hj => hj⟩

theorem ldiIn_keepsHaltAndWritten {cfg : Config} {dst : Reg4} {imm : Imm4} {s t : State}
    (h : ldiIn cfg dst imm s = .next t) : KeepsHaltAndWritten s t := by
  obtain ⟨k, -, rfl⟩ | ⟨-, rfl⟩ := ldiIn_next h
  · exact ⟨rfl, fun _ hj => State.setStore_keeps_written hj k (immValue imm)⟩
  · exact ⟨rfl, fun _ hj => hj⟩

theorem jumpReg_keepsHaltAndWritten {cfg : Config} {jneg : Bool} {r : Reg4} {s t : State}
    (h : jumpReg cfg jneg r s = .next t) : KeepsHaltAndWritten s t := by
  obtain ⟨ks, drew, v, rfl⟩ := jumpReg_eq_afterRead_jumpTo h
  exact ⟨rfl, fun _ hj => hj⟩

theorem jniIn_keepsHaltAndWritten {cfg : Config} {imm : Imm4} {s t : State} (h : jniIn cfg imm s = .next t) :
    KeepsHaltAndWritten s t := by
  obtain rfl := Host.Outcome.next.inj ((jniIn_eq cfg imm s).symm.trans h)
  exact ⟨rfl, fun _ hj => hj⟩

/-- An instruction that answers is HLT, or RST, or keeps the halted flag and the written registers. -/
theorem execIn_next {cfg : Config} {i : Instr} {s t : State} (h : execIn cfg i s = .next t) :
    (i = .hlt ∧ t = s.halt) ∨ (i = .rst ∧ t = s.takeReset) ∨ KeepsHaltAndWritten s t := by
  cases i with
  | mov dst src => exact .inr (.inr (movIn_keepsHaltAndWritten h))
  | ldi dst imm => exact .inr (.inr (ldiIn_keepsHaltAndWritten h))
  | jez r => exact .inr (.inr (jumpReg_keepsHaltAndWritten h))
  | jnz r => exact .inr (.inr (jumpReg_keepsHaltAndWritten h))
  | jni imm => exact .inr (.inr (jniIn_keepsHaltAndWritten h))
  | hlt => cases h; exact .inl ⟨rfl, rfl⟩
  | rst => cases h; exact .inr (.inl ⟨rfl, rfl⟩)

/-- A cycle that answers takes an external reset, or runs HLT or RST on a machine that is not halted, or keeps the halted flag
and the written registers. -/
theorem stepIn_next {cfg : Config} {s t : State} (h : stepIn cfg s = .next t) :
    (s.extReset = true ∧ t = s.takeExternalReset) ∨
    (decode cfg.hltRstSwap s.fetch = .hlt ∧ s.halted = false ∧ t = s.halt) ∨
    (decode cfg.hltRstSwap s.fetch = .rst ∧ s.halted = false ∧ t = s.takeReset) ∨
    KeepsHaltAndWritten s t := by
  rcases cycle_next h with hreset | ⟨-, -, rfl⟩ | ⟨-, hhalt, -, hexec⟩
  · exact .inl hreset
  · exact .inr (.inr (.inr ⟨rfl, fun _ hj => hj⟩))
  · rcases execIn_next hexec with ⟨hi, ht⟩ | ⟨hi, ht⟩ | hkeeps
    · exact .inr (.inl ⟨hi, hhalt, ht⟩)
    · exact .inr (.inr (.inl ⟨hi, hhalt, ht⟩))
    · exact .inr (.inr (.inr hkeeps))

/-- A halted machine's cycle is idle where no external reset is asserted (R210, R243). -/
theorem cycle_of_halted {s : State} (hreset : s.extReset = false) (hhalt : s.halted = true) (cfg : Config)
    (run : Instr → State → Result) : cycle cfg run s = .next s := by
  simp [cycle, hreset, hhalt]

/-! ## The control words of HLT and RST (R211, R216) -/

theorem asserted_hltWord_iff (sig : Signal) : asserted hltWord sig = true ↔ sig = .hlt := by
  cases sig <;> simp [asserted, hltWord, noSignals]

theorem asserted_rstWord_iff (sig : Signal) : asserted rstWord sig = true ↔ sig = .rst := by
  cases sig <;> simp [asserted, rstWord, noSignals]

end Sys2Proof.Machine
end

section
/-! PROOF. The statements on HLT, RST and the halted machine. -/

namespace Sys2Proof.Machine

/-- Settles O34: of all that a cycle can do only HLT sets the halted flag; RST clears it too, but no halted machine runs it. -/
theorem haltOnlyByHltEndedOnlyByReset : Obligations.HaltOnlyByHltEndedOnlyByReset := by
  intro cfg s t h
  rcases stepIn_next h with ⟨hreset, rfl⟩ | ⟨hi, hhalt, rfl⟩ | ⟨-, hhalt, rfl⟩ | hkeeps
  · exact ⟨nofun, fun _ _ => hreset⟩
  · exact ⟨fun _ => .inr hi, nofun⟩
  · exact ⟨nofun, fun hs => nomatch hhalt.symm.trans hs⟩
  · have heq := hkeeps.halted
    exact ⟨fun ht => .inl (heq.symm.trans ht), fun hs ht => nomatch (heq.trans hs).symm.trans ht⟩

/-- Settles O36: apart from an external reset and RST, a cycle keeps every written register written. -/
theorem onlyResetsForgetRegisters : Obligations.OnlyResetsForgetRegisters := by
  intro cfg s t k h hs ht
  rcases stepIn_next h with ⟨hreset, -⟩ | ⟨-, -, rfl⟩ | ⟨hi, -, -⟩ | hkeeps
  · exact .inl hreset
  · cases hs.symm.trans ht
  · exact .inr hi
  · cases (hkeeps.written k hs).symm.trans ht

/-- Settles O9: the cycle looks at the halted flag before it fetches. -/
theorem haltedMachineIsIdle : Obligations.HaltedMachineIsIdle := fun _ hreset hhalt =>
  cycle_of_halted hreset hhalt defaultConfig exec

/-- Settles O24: HLT is the state operation `halt`. -/
theorem hltHalts : Obligations.HltHalts := fun _ => rfl

/-- Settles O25: RST is the state operation `takeReset`. -/
theorem rstResets : Obligations.RstResets := fun _ => rfl

/-- Settles O31: the fields that `halt` and `takeReset` do not name. -/
theorem hltAndRstFrame : Obligations.HltAndRstFrame := by
  intro s t
  constructor
  · rintro ⟨⟩
    exact ⟨rfl, rfl, rfl⟩
  · rintro (⟨⟨⟩⟩ | ⟨⟨⟩⟩)
    · exact ⟨rfl, rfl, rfl, rfl, fun _ => rfl⟩
    · exact ⟨rfl, rfl, rfl, rfl, fun _ => rfl⟩

/-- Settles O46: both instructions are valid, so under revision 1 each has the word of its own rule. -/
theorem controlWordsOfHltAndRst : Obligations.ControlWordsOfHltAndRst := fun _ hone =>
  ⟨⟨_, translateInstr_eq_controlWord hone rfl, asserted_hltWord_iff⟩,
    ⟨_, translateInstr_eq_controlWord hone rfl, asserted_rstWord_iff⟩⟩

end Sys2Proof.Machine
end

section
/-! SUPPORT. What each instruction and a machine cycle make of a recorded fault, and the cycle that samples an external reset: the
facts that the statements on exceptions (60_exceptions.md) rest on. -/

namespace Sys2Proof.Machine

/-! ## A recorded fault over a cycle (R234) -/

theorem jumpReg_keeps_fault {cfg : Config} {jneg : Bool} {r : Reg4} {s t : State} (h : jumpReg cfg jneg r s = .next t)
    (hs : s.faulted ≠ none) : t.faulted = s.faulted := by
  obtain ⟨ks, drew, v, rfl⟩ := jumpReg_eq_afterRead_jumpTo h
  exact State.afterRead_keeps_fault hs ks drew

theorem jniIn_keeps_fault {cfg : Config} {imm : Imm4} {s t : State} (h : jniIn cfg imm s = .next t)
    (hs : s.faulted ≠ none) : t.faulted = s.faulted := by
  obtain rfl := Host.Outcome.next.inj ((jniIn_eq cfg imm s).symm.trans h)
  exact State.afterRead_keeps_fault hs [conditionReg] false

theorem execIn_keeps_fault {cfg : Config} {i : Instr} {s t : State} (h : execIn cfg i s = .next t)
    (hs : s.faulted ≠ none) : t.faulted = s.faulted := by
  cases i with
  | mov dst src => exact (movIn_unchangedBut h).faulted hs
  | ldi dst imm => exact (ldiIn_unchangedBut h).faulted hs
  | jez r => exact jumpReg_keeps_fault h hs
  | jnz r => exact jumpReg_keeps_fault h hs
  | jni imm => exact jniIn_keeps_fault h hs
  | hlt => cases h; rfl
  | rst => cases h; rfl

/-- Neither an external reset nor an idle cycle touches the fault record (R260, R243). -/
theorem stepIn_keeps_fault {cfg : Config} {s t : State} (h : stepIn cfg s = .next t) (hs : s.faulted ≠ none) :
    t.faulted = s.faulted := by
  obtain ⟨-, rfl⟩ | ⟨-, -, rfl⟩ | ⟨-, -, -, hexec⟩ := cycle_next h
  · rfl
  · rfl
  · exact execIn_keeps_fault hexec hs

/-! ## The cycle that samples an external reset (R233, R262) -/

/-- The external reset is taken whatever instruction stands at `pc`, halted or not. -/
theorem cycle_of_extReset {s : State} (hreset : s.extReset = true) (cfg : Config) (run : Instr → State → Result) :
    cycle cfg run s = .next s.takeExternalReset := if_pos hreset

end Sys2Proof.Machine
end

section
/-! PROOF. The statements on the completion of instructions, recorded faults and the external reset. -/

namespace Sys2Proof.Machine

/-- Settles O26: at the spec's defaults id 3 is not mapped, so no access is refused. -/
theorem decodedInstructionsComplete : Obligations.DecodedInstructionsComplete := by
  intro i s hi
  obtain ⟨t, hexec, -⟩ := execIn_wellFormed defaultConfig_memcellMapped hi s
  exact ⟨t, (exec_eq_execIn i s).trans hexec⟩

/-- Settles O35: the first report is kept by every read, and nothing else writes the record. -/
theorem recordedFaultIsSticky : Obligations.RecordedFaultIsSticky := by
  intro cfg s t f h hs
  have hkeeps : t.faulted = s.faulted := stepIn_keeps_fault h (hs ▸ Option.some_ne_none f)
  exact hkeeps.trans hs

/-- Settles O8: the cycle looks at the reset input before anything else. -/
theorem externalResetWins : Obligations.ExternalResetWins := fun _ hreset =>
  cycle_of_extReset hreset defaultConfig exec

end Sys2Proof.Machine
end

section
/-! SUPPORT. What a reset leaves in the registers, and the machine after reset is running: the facts that the statement on
the reset state (70_reset_and_hazards.md) rests on. -/

namespace Sys2Proof.Machine

/-! ## The reset state (R260, R261) -/

theorem getElem_resetWritten (k : Fin 6) : resetWritten[k] = false := by
  simp [resetWritten]

@[simp] theorem State.reset_st (k : Fin 6) : State.reset.st k = none :=
  (State.st_eq_none_iff State.reset k).mpr (getElem_resetWritten k)

/-- Reset leaves the constant ROM pages installed, so all it takes to run is that the revision's tables are supplied. -/
theorem State.reset_running {cfg : Config} {t : RevisionTables} (ht : revisionTables cfg = .ok t) :
    State.reset.Running cfg :=
  ⟨State.reset_extReset, State.reset_halted, romReady_generated ht State.reset_rom⟩

end Sys2Proof.Machine
end

section
/-! PROOF. The statement on the reset state. -/

namespace Sys2Proof.Machine

/-- Settles O39: the spec's defaults are revision 1, whose tables are always supplied. -/
theorem resetState : Obligations.ResetState :=
  ⟨State.reset_pc, State.reset_halted, State.reset_st, State.reset_running (revisionTables_one rfl)⟩

end Sys2Proof.Machine
end

section
/-! SUPPORT. Canonical program memory as the set of its entries, the byte that a placed instruction is fetched as, and the
registers at their reset value over a cycle: the facts that the statements on the state's invariant (20_memory.md section 1,
70_reset_and_hazards.md section 1) and on the host's placement rest on. -/

namespace Sys2Proof.Machine

/-! ## Canonical program memory: its entries are what it reads as (log entry 3) -/

theorem Memory.wfFrom_cons (lo k : Nat) (v : Byte) (m : Memory) :
    Memory.wfFrom lo ((k, v) :: m) = true ↔ lo ≤ k ∧ k < 256 ∧ v ≠ unlistedByte ∧ Memory.wfFrom (k + 1) m = true := by
  simp [Memory.wfFrom, and_assoc]

/-- The entries of canonical memory are the addresses that do not read as an unlisted one, each with its byte. -/
theorem Memory.mem_iff_read {lo : Nat} {m : Memory} (h : Memory.wfFrom lo m = true) (a : Nat) (v : Byte) :
    (a, v) ∈ m ↔ v ≠ unlistedByte ∧ m.read a = v := by
  induction m generalizing lo with
  | nil => simpa using fun hv heq => hv heq.symm
  | cons c m ih =>
    obtain ⟨k, w⟩ := c
    obtain ⟨-, -, hw, hm⟩ := (Memory.wfFrom_cons ..).mp h
    rw [List.mem_cons, Prod.mk.injEq, ih hm, Memory.read_cons]
    by_cases hk : k = a
    · subst hk
      rw [Memory.read_below hm (Nat.lt_succ_self k), if_pos rfl]
      constructor
      · rintro (⟨-, rfl⟩ | ⟨hv, hu⟩)
        · exact ⟨hw, rfl⟩
        · exact absurd hu.symm hv
      · rintro ⟨-, rfl⟩
        exact .inl ⟨rfl, rfl⟩
    · rw [if_neg hk]
      exact or_iff_right fun hc => hk hc.1.symm

theorem Memory.le_of_mem {lo : Nat} {m : Memory} (h : Memory.wfFrom lo m = true) {c : Host.Cell} (hc : c ∈ m) :
    lo ≤ c.1 := by
  obtain ⟨hv, hread⟩ := (Memory.mem_iff_read h c.1 c.2).mp hc
  by_contra hlt
  exact hv (hread.symm.trans (Memory.read_below h (Nat.lt_of_not_le hlt)))

theorem Memory.pairwise_of_wfFrom {lo : Nat} {m : Memory} (h : Memory.wfFrom lo m = true) :
    m.Pairwise fun c d => c.1 < d.1 := by
  induction m generalizing lo with
  | nil => exact List.Pairwise.nil
  | cons c m ih =>
    obtain ⟨-, -, -, hm⟩ := (Memory.wfFrom_cons ..).mp h
    exact List.pairwise_cons.mpr ⟨fun d hd => Memory.le_of_mem hm hd, ih hm⟩

/-! ## The instruction placed where the next cycle fetches (log entry 21) -/

theorem State.fetch_placeInstruction {s : State} (h : Memory.wf s.imem = true) (b : Byte) :
    (s.placeInstruction b).fetch = b :=
  (Memory.read_write h s.pc.toNat b s.pc.toNat).trans (if_pos rfl)

theorem State.placeInstruction_running (s : State) (b : Byte) : (s.placeInstruction b).Running defaultConfig :=
  ⟨rfl, rfl, romReady_generated (revisionTables_one rfl) rfl⟩

theorem tableByte_eight (w : Nat) : tableByte 8 w = BitVec.ofNat 8 w :=
  BitVec.eq_of_toNat_eq (by simp [tableByte])

/-! ## Unwritten registers at their reset value (R260, log entry 1) -/

/-- Every register that nothing has written since reset holds its reset value: the invariant's part about registers. -/
def UnwrittenAtReset (s : State) : Prop := ∀ k : Fin 6, s.written[k] = false → s.regs[k] = resetRegs[k]

theorem unwrittenAtReset_of_regs {s : State} (h : s.regs = resetRegs) : UnwrittenAtReset s := fun k _ => by rw [h]

/-- A register that is unwritten after a write was unwritten before, and is not the one written. -/
theorem UnwrittenAtReset.setStore {s : State} (hs : UnwrittenAtReset s) (k : Fin 6) (v : Byte) :
    UnwrittenAtReset (s.setStore k v) := by
  intro j hj
  simp only [State.setStore_regs, State.setStore_written, Fin.getElem_fin, Vector.getElem_set] at hj ⊢
  split at hj
  · cases hj
  · next hne => rw [if_neg hne]; exact hs j hj

section
variable {cfg : Config} {s t : State} (hs : UnwrittenAtReset s)
include hs

theorem movIn_unwrittenAtReset {dst src : Reg4} (h : movIn cfg dst src s = .next t) : UnwrittenAtReset t := by
  obtain ⟨n, -, ⟨k, -, rfl⟩ | ⟨-, rfl⟩⟩ := movIn_next h
  · exact hs.setStore k (readValue cfg s n)
  · exact hs

theorem ldiIn_unwrittenAtReset {dst : Reg4} {imm : Imm4} (h : ldiIn cfg dst imm s = .next t) : UnwrittenAtReset t := by
  obtain ⟨k, -, rfl⟩ | ⟨-, rfl⟩ := ldiIn_next h
  · exact hs.setStore k (immValue imm)
  · exact hs

theorem jumpReg_unwrittenAtReset {jneg : Bool} {r : Reg4} (h : jumpReg cfg jneg r s = .next t) : UnwrittenAtReset t := by
  obtain ⟨ks, drew, v, rfl⟩ := jumpReg_eq_afterRead_jumpTo h
  exact hs

theorem jniIn_unwrittenAtReset {imm : Imm4} (h : jniIn cfg imm s = .next t) : UnwrittenAtReset t := by
  obtain rfl := Host.Outcome.next.inj ((jniIn_eq cfg imm s).symm.trans h)
  exact hs

theorem execIn_unwrittenAtReset {i : Instr} (h : execIn cfg i s = .next t) : UnwrittenAtReset t := by
  cases i with
  | mov dst src => exact movIn_unwrittenAtReset hs h
  | ldi dst imm => exact ldiIn_unwrittenAtReset hs h
  | jez r => exact jumpReg_unwrittenAtReset hs h
  | jnz r => exact jumpReg_unwrittenAtReset hs h
  | jni imm => exact jniIn_unwrittenAtReset hs h
  | hlt => cases h; exact hs
  | rst => cases h; exact unwrittenAtReset_of_regs s.takeReset_regs

theorem stepIn_unwrittenAtReset (h : stepIn cfg s = .next t) : UnwrittenAtReset t := by
  obtain ⟨-, rfl⟩ | ⟨-, -, rfl⟩ | ⟨-, -, -, hexec⟩ := cycle_next h
  · exact unwrittenAtReset_of_regs s.takeExternalReset_regs
  · exact hs
  · exact execIn_unwrittenAtReset hs hexec

end

end Sys2Proof.Machine
end

section
/-! PROOF. The statements on the state's invariant, canonical program memory and the host's placement. -/

namespace Sys2Proof.Machine

/-- Settles O37: no cycle writes program memory, and only a write or a reset changes a register. -/
theorem stepKeepsInvariant : Obligations.StepKeepsInvariant := by
  rintro cfg s t ⟨hwf, hregs⟩ h
  obtain ⟨himem, -⟩ := stepIn_sameProgram h
  exact ⟨himem ▸ hwf, stepIn_unwrittenAtReset hregs h⟩

/-- Settles O38: reset leaves program memory empty and every register at its reset value. -/
theorem resetMeetsInvariant : Obligations.ResetMeetsInvariant :=
  ⟨Memory.wf_reset, unwrittenAtReset_of_regs State.reset_regs⟩

/-- Settles O60: memories that read alike have the same entries, and both list them by rising address. -/
theorem canonicalMemoryIsUnique : Obligations.CanonicalMemoryIsUnique := by
  intro m m' hm hm' hread
  have hmem : ∀ c : Host.Cell, c ∈ m ↔ c ∈ m' := fun ⟨a, v⟩ => by
    rw [Memory.mem_iff_read hm, Memory.mem_iff_read hm', hread]
  exact (Memory.pairwise_of_wfFrom hm).eq_of_mem_iff (Memory.pairwise_of_wfFrom hm') hmem

/-- Settles O7: the byte placed is the byte fetched, and the machine runs. -/
theorem placedWordRunsNext : Obligations.PlacedWordRunsNext := by
  intro s w hwf
  have hfetch : (s.withFetchWord 8 w).fetch = BitVec.ofNat 8 w :=
    (State.fetch_placeInstruction hwf (tableByte 8 w)).trans (tableByte_eight w)
  have hrun : (s.withFetchWord 8 w).Running defaultConfig := s.placeInstruction_running (tableByte 8 w)
  exact (stepRunsFetchedInstruction _ _ hrun (congrArg (decode false) hfetch)).2

end Sys2Proof.Machine
end
